-- ==== Sys2Proof/Word.lean ====
section
/-! DEFINITION. The words of SN-CODEC CORE: bytes, 32-bit register words and 64-bit operands. -/

namespace Sys2Proof

/-- A `u8` of 00_scope.md R10 and R11: one byte, one character. -/
abbrev Byte := BitVec 8

/-- The contents of one 32-bit register of the window (R51). -/
abbrev Word := BitVec 32

/-- The 64-bit operands VALUE and KEY (R30, R31). -/
abbrev DWord := BitVec 64

end Sys2Proof
end

