-- ==== Sys2Proof/Syntax.lean ====
section
/-! DEFINITION. The commands of SN-CODEC CORE: one constructor per row of the opcode table (30_encoding.md R73). -/

namespace Sys2Proof

/-- A command. All operands but the immediate are implicit registers and buffers (R74).
`min_digits` is a count, so it is a natural number, and `WellFormed` bounds it by its 8-bit field (log 9). -/
inductive Instr
  /-- `nop`: clear STATUS.ERR (R170). -/
  | nop
  /-- `b36.enc n`: encode VALUE as base-36 text of at least `minDigits` digits (R104). -/
  | b36Enc (minDigits : Nat)
  /-- `b36.dec`: decode the base-36 text in IBUF into VALUE (R105). -/
  | b36Dec
  /-- `crc.reset`: load CRC_ACC from CRC_INIT (R125). -/
  | crcReset
  /-- `crc.byte b`: process the byte `data` (R126). -/
  | crcByte (data : Byte)
  /-- `crc.buf`: process the bytes in IBUF (R127). -/
  | crcBuf
  /-- `hkey`: derive KEY from the bytes in IBUF (R143). -/
  | hkey
  /-- `sn.mask`: mask or unmask VALUE with KEY (R157). -/
  | snMask
  /-- `sn.enc`: encode the plain identifier in IBUF (R158). -/
  | snEnc
  /-- `sn.dec`: decode and verify the encoded identifier in IBUF (R159). -/
  | snDec
  deriving DecidableEq, Repr

end Sys2Proof
end

