-- ==== Sys2Proof/WellFormed.lean ====
section
/-! DEFINITION. Which commands a command word can hold: the immediate fits IMM8 (30_encoding.md R70, R74). -/

namespace Sys2Proof

/-- `min_digits` is "0 to 255" (R74); a data byte is a byte by its type, and no other command has an operand. -/
def Instr.wf : Instr → Bool
  | .nop => true
  | .b36Enc minDigits => decide (minDigits < 256)
  | .b36Dec => true
  | .crcReset => true
  | .crcByte _ => true
  | .crcBuf => true
  | .hkey => true
  | .snMask => true
  | .snEnc => true
  | .snDec => true

end Sys2Proof
end

