-- ==== Sys2Proof/Decode.lean ====
section
/-! DEFINITION. Decoding a word written to CMD (30_encoding.md R70 to R75), and the encoder from the same table. -/

namespace Sys2Proof

/-- Why a word is illegal: the three kinds of R75. The block reports each of them as CommandError (R171). -/
inductive DecodeError
  /-- RSV, bits [31:16], is not 0. -/
  | reservedNonzero
  /-- OPC is outside the table of R73. -/
  | unassignedOpcode
  /-- IMM8 is not 0 on an opcode that takes no immediate. -/
  | immediateNonzero
  deriving DecidableEq, Repr

/-- OPC, bits [7:0] of a command word (R70). -/
def cmdOpc (w : Word) : Byte := w.extractLsb' 0 8

/-- IMM8, bits [15:8] of a command word (R70). -/
def cmdImm8 (w : Word) : Byte := w.extractLsb' 8 8

/-- RSV, bits [31:16] of a command word (R70). -/
def cmdRsv (w : Word) : BitVec 16 := w.extractLsb' 16 16

/-- The opcode map of R73, with the operand assembly of R74: the command of opcode `opc` with immediate `imm`. -/
def instrOf (opc imm : Byte) : Option Instr :=
  match opc.toNat with
  | 0x00 => some .nop
  | 0x10 => some (.b36Enc imm.toNat)
  | 0x11 => some .b36Dec
  | 0x20 => some .crcReset
  | 0x21 => some (.crcByte imm)
  | 0x22 => some .crcBuf
  | 0x30 => some .hkey
  | 0x40 => some .snMask
  | 0x41 => some .snEnc
  | 0x42 => some .snDec
  | _ => none

/-- TAKES_IMM of R72: CRC_BYTE and B36_ENC. -/
def takesImm (opc : Byte) : Bool := opc == 0x21 || opc == 0x10

/-- `decode(w)` of R72, its checks in the rule's order. -/
def decode (w : Word) : Except DecodeError Instr :=
  if cmdRsv w ≠ 0 then .error .reservedNonzero
  else
    match instrOf (cmdOpc w) (cmdImm8 w) with
    | none => .error .unassignedOpcode
    | some i =>
      if takesImm (cmdOpc w) = false ∧ cmdImm8 w ≠ 0 then .error .immediateNonzero else .ok i

/-- The word of format CMD32 with the given OPC and IMM8 and with RSV = 0 (R70, R76): `(imm8 << 8) | OPC`. -/
def cmdWord (opc imm : Byte) : Word := imm.setWidth 32 <<< 8 ||| opc.setWidth 32

/-- The word of a command (R73, R76). -/
def encode : Instr → Word
  | .nop => cmdWord 0x00 0
  | .b36Enc minDigits => cmdWord 0x10 (BitVec.ofNat 8 minDigits)
  | .b36Dec => cmdWord 0x11 0
  | .crcReset => cmdWord 0x20 0
  | .crcByte data => cmdWord 0x21 data
  | .crcBuf => cmdWord 0x22 0
  | .hkey => cmdWord 0x30 0
  | .snMask => cmdWord 0x40 0
  | .snEnc => cmdWord 0x41 0
  | .snDec => cmdWord 0x42 0

/-- The command that the bits `w` of an opcode-table row decode to. A command is one 32-bit word (R71), so a
number of 2^32 or more is no command word, and the bits above a shorter row are 0. -/
def decodeTableWord (nbits w : Nat) : Option Instr :=
  if nbits ≤ 32 ∧ w < 2 ^ 32 then (decode (BitVec.ofNat 32 w)).toOption else none

end Sys2Proof
end

