-- ==== Sys2Proof/Config.lean ====
section
/-! DEFINITION. The implementation parameters of 00_scope.md R6. `CORE_BASE` is the one that is left open:
it is the field `coreBase` of `State` (log 3). The hardware leaves no value free, so no constant here is opaque. -/

namespace Sys2Proof.Config

/-- WINDOW_BYTES: the window is the offsets 0x00 to 0x7F (R50). -/
abbrev windowBytes : Nat := 128

/-- IBUF_BYTES and OBUF_BYTES (R34, R35). -/
abbrev bufBytes : Nat := 16

/-- PLAIN_LEN: the bytes of a plain identifier (R151). -/
abbrev plainLen : Nat := 12

/-- ENC_LEN: the bytes of an encoded identifier (R152). -/
abbrev encLen : Nat := 14

/-- DIGITS_MASKED: the base-36 digits of the masked value (R152). -/
abbrev digitsMasked : Nat := 10

/-- DIGITS_CRC: the base-36 digits of the CRC field (R152). -/
abbrev digitsCrc : Nat := 2

/-- PREFIX: the two bytes of ASCII "RB" (R6, R151). -/
def rbPrefix : List Byte := [0x52, 0x42]

/-- `M50 = 2^50 - 1` (R150). -/
def m50 : DWord := 0x3FFFFFFFFFFFF

/-- A CRC-8 parameter set `P` of R120; the width is fixed at 8. -/
structure CrcParams where
  poly : Byte
  init : Byte
  refin : Bool
  refout : Bool
  xorout : Byte
  deriving DecidableEq, Repr

/-- The fixed parameter set CRC-8/CDMA2000 (R2, R120). -/
def cdma2000 : CrcParams :=
  { poly := 0x9B, init := 0xFF, refin := false, refout := false, xorout := 0x00 }

end Sys2Proof.Config
end

