-- ==== Sys2Proof/Machine/State.lean ====
section
/-! DEFINITION. The state of SN-CODEC CORE: the block's architectural state of 10_state.md R22, and around it
the host interface of 00_scope.md R7 and R8. Plain data throughout. -/

namespace Sys2Proof.Machine

/-- The error kinds of 00_scope.md R13; their codes in STATUS.ERR are `errCode` (60_exceptions.md R180). -/
inductive ErrorKind
  | format
  | digit
  | integrity
  | range
  | command
  deriving DecidableEq, Repr

/-- The registers of the window (20_memory.md R51). -/
inductive Reg
  | cmd
  | status
  | crcPoly
  | crcInit
  | crcXorout
  | crcCtrl
  | crcAcc
  | crcOut
  | valueLo
  | valueHi
  | keyLo
  | keyHi
  | ilen
  | olen
  /-- IBUF0 to IBUF3. -/
  | ibuf (k : Fin 4)
  /-- OBUF0 to OBUF3. -/
  | obuf (k : Fin 4)
  /-- A reserved offset: 0x38, 0x3C and 0x60 to 0x7C. -/
  | reserved (offset : Nat)
  deriving DecidableEq, Repr

/-- The block's architectural state: exactly the set of R22. CRC_OUT (R29) and CMD (R36) hold no state. -/
structure Block where
  /-- STATUS.ERR (R23). -/
  err : BitVec 4
  /-- CRC_POLY (R24). -/
  crcPoly : Byte
  /-- CRC_INIT (R25). -/
  crcInit : Byte
  /-- CRC_XOROUT (R26). -/
  crcXorout : Byte
  /-- CRC_CTRL.REFIN (R27). -/
  refin : Bool
  /-- CRC_CTRL.REFOUT (R27). -/
  refout : Bool
  /-- CRC_ACC (R28). -/
  crcAcc : Byte
  /-- VALUE (R30). -/
  value : DWord
  /-- KEY (R31). -/
  key : DWord
  /-- ILEN (R32). -/
  ilen : BitVec 5
  /-- IBUF (R34). -/
  ibuf : Vector Byte 16
  /-- OLEN (R33). -/
  olen : BitVec 5
  /-- OBUF (R35). -/
  obuf : Vector Byte 16
  deriving DecidableEq, Repr

/-- What a transaction does: a read, or a write of a word (R7). -/
inductive Access
  | read
  | write (data : Word)
  deriving DecidableEq, Repr

/-- One host transaction as the bus presents it (R7, R52, R53): the absolute address of its first byte, its
width in bits, and what it does (log 7). -/
structure Transaction where
  addr : Nat
  widthBits : Nat
  access : Access
  deriving DecidableEq, Repr

/-- What reaches the block from outside: a transaction, or an edge of the reset line (R200, log 4). -/
inductive BusEvent
  | transaction (t : Transaction)
  | resetAssert
  | resetRelease
  deriving DecidableEq, Repr

/-- Why a transaction is refused. -/
inductive Fault
  /-- The bus error of R53 (an access that is not 32 bits wide at an offset that is a multiple of 4) and of R200 (an
  access while reset is held). `transact` raises it; `step` reports it to the host on that transaction, changes no
  state and goes on (log 2). Safe: the spec gives exactly this. -/
  | busError
  deriving DecidableEq, Repr

/-- Why the model has no meaning for something. -/
inductive Refusal
  /-- An instruction that has no meaning in the model, by its mnemonic. Raised by `exec` alone; no command is left
  so. Safe: the model stops where the hardware goes on. -/
  | notModelled (mnemonic : String)
  deriving DecidableEq, Repr

/-- What a host is answered on one transaction (R8, R53). -/
inductive Response
  | readData (data : Word)
  | writeDone
  | fault (reason : Fault)
  deriving DecidableEq, Repr

/-- The machine: the block, and the host interface around it. -/
structure State where
  /-- The block's architectural state (R22). -/
  block : Block
  /-- The model's own: the events not performed yet, in the order the bus chose (R60, R61, log 1). -/
  pending : List BusEvent
  /-- The model's own: the answer to every transaction of the block so far, oldest first (R8, log 10). -/
  responses : List Response
  /-- The model's own: reset is being held (R200, log 4). -/
  resetHeld : Bool
  /-- The open parameter CORE_BASE (R52), which the platform fixes and no step changes (log 3). -/
  coreBase : Nat
  deriving DecidableEq, Repr

/-- The reset values of R40. -/
def Block.reset : Block where
  err := 0
  crcPoly := 0x9B
  crcInit := 0xFF
  crcXorout := 0x00
  refin := false
  refout := false
  crcAcc := 0xFF
  value := 0
  key := 0
  ilen := 0
  ibuf := Vector.replicate 16 0x00
  olen := 0
  obuf := Vector.replicate 16 0x00

/-- The machine right after reset: the block at R40, nothing issued and nothing answered (logs 1, 4, 10), the window at
address 0 (DESIGN CHOICE, log 3). -/
def State.reset : State where
  block := Block.reset
  pending := []
  responses := []
  resetHeld := false
  coreBase := 0

end Sys2Proof.Machine
end

