-- ==== Sys2Proof/Machine/Base36.lean ====
section
/-! DEFINITION. The base-36 functions of 40_base36.md R100 to R102, on unbounded naturals (00_scope.md R10). -/

namespace Sys2Proof.Machine

/-- `digit(i)` of R100, for `i` in 0..35. -/
def b36Digit (i : Nat) : Byte :=
  if i < 10 then BitVec.ofNat 8 (0x30 + i) else BitVec.ofNat 8 (0x41 + (i - 10))

/-- `index(c)` of R100; `none` where the rule says undefined (lower case and every other byte). -/
def b36Index (c : Byte) : Option Nat :=
  if 0x30 ≤ c.toNat ∧ c.toNat ≤ 0x39 then some (c.toNat - 0x30)
  else if 0x41 ≤ c.toNat ∧ c.toNat ≤ 0x5A then some (c.toNat - 0x41 + 10)
  else none

/-- The first loop of `b36_encode` in R101: `s` is the text built so far. The loop ends at `v = 0`; `fuel` bounds its turns,
and `Nat.log2 v + 1` turns are enough, since each divides `v` by 36 (log 11). -/
def b36DigitLoop : (fuel v : Nat) → (s : List Byte) → List Byte
  | 0, _, s => s
  | fuel + 1, v, s => if v = 0 then s else b36DigitLoop fuel (v / 36) (b36Digit (v % 36) :: s)

/-- `b36_encode(v, md)` of R101: the digits, then zeros on the left up to `md` bytes. -/
def b36Encode (v md : Nat) : List Byte :=
  let s := b36DigitLoop (Nat.log2 v + 1) v []
  List.replicate (md - s.length) 0x30 ++ s

/-- The loop of `b36_decode` in R102, from the value `r` on. -/
def b36DecodeFrom (r : Nat) : List Byte → Except ErrorKind Nat
  | [] => .ok r
  | c :: t =>
    match b36Index c with
    | none => .error .digit
    | some d => b36DecodeFrom (r * 36 + d) t

/-- `b36_decode(t)` of R102. -/
def b36Decode (t : List Byte) : Except ErrorKind Nat := b36DecodeFrom 0 t

end Sys2Proof.Machine
end

