-- ==== Sys2Proof/Machine/Bytes.lean ====
section
/-! DEFINITION. Byte and word order: how words are put together from bytes, and 64-bit operands from words (20_memory.md R56,
R57). -/

namespace Sys2Proof.Machine

/-- `b0 | b1 << 8 | b2 << 16 | b3 << 24` (R56). -/
def wordOfBytes (b0 b1 b2 b3 : Byte) : Word :=
  b0.setWidth 32 ||| b1.setWidth 32 <<< 8 ||| b2.setWidth 32 <<< 16 ||| b3.setWidth 32 <<< 24

/-- The 64-bit operand with the halves `lo`, bits [31:0], and `hi`, bits [63:32] (R57). -/
def dwordOfWords (lo hi : Word) : DWord := lo.setWidth 64 ||| hi.setWidth 64 <<< 32

/-- Bits [31:0] of a 64-bit operand (R57). -/
def dwordLo (v : DWord) : Word := v.extractLsb' 0 32

/-- Bits [63:32] of a 64-bit operand (R57). -/
def dwordHi (v : DWord) : Word := v.extractLsb' 32 32

end Sys2Proof.Machine
end

