-- ==== Sys2Proof/Machine/Crc8.lean ====
section
/-! DEFINITION. The CRC-8 functions of 41_crc8.md R121 to R124. -/

namespace Sys2Proof.Machine

open Sys2Proof.Config (CrcParams)

/-- `rev8(b)` of R121: `rev8(b)[i] = b[7 - i]`. The first bit of the list is bit 7 of the result. -/
def rev8 (b : Byte) : Byte :=
  BitVec.ofBoolListBE
    [b.getLsbD 0, b.getLsbD 1, b.getLsbD 2, b.getLsbD 3, b.getLsbD 4, b.getLsbD 5, b.getLsbD 6, b.getLsbD 7]

/-- One iteration of the loop of R122. The byte type keeps the low 8 bits. -/
def crc8Shift (poly s : Byte) : Byte :=
  if s.getLsbD 7 then (s <<< 1) ^^^ poly else s <<< 1

/-- `n` iterations of the loop of R122. -/
def crc8Shifts (poly : Byte) : Nat → Byte → Byte
  | 0, s => s
  | n + 1, s => crc8Shifts poly n (crc8Shift poly s)

/-- `crc8_update(s, b, poly, refin)` of R122. -/
def crc8Update (s b poly : Byte) (refin : Bool) : Byte :=
  crc8Shifts poly 8 (s ^^^ (if refin then rev8 b else b))

/-- `crc8_update_all(s, t, poly, refin)` of R122: `t[0]`, `t[1]` and so on in order. -/
def crc8UpdateAll (s : Byte) (t : List Byte) (poly : Byte) (refin : Bool) : Byte :=
  t.foldl (fun acc b => crc8Update acc b poly refin) s

/-- `crc8_finalize(s, refout, xorout)` of R123. -/
def crc8Finalize (s : Byte) (refout : Bool) (xorout : Byte) : Byte :=
  (if refout then rev8 s else s) ^^^ xorout

/-- `crc8(P, t)` of R124. -/
def crc8 (p : CrcParams) (t : List Byte) : Byte :=
  crc8Finalize (crc8UpdateAll p.init t p.poly p.refin) p.refout p.xorout

/-- `crc8_cdma2000(t)` of R124. -/
def crc8Cdma2000 (t : List Byte) : Byte := crc8 Sys2Proof.Config.cdma2000 t

end Sys2Proof.Machine
end

