-- ==== Sys2Proof/Machine/Flags.lean ====
section
/-! DEFINITION. STATUS.ERR, the block's only flag (10_state.md R23, R39; 60_exceptions.md R180). -/

namespace Sys2Proof.Machine

/-- The codes of R180. -/
def errCode : ErrorKind → BitVec 4
  | .format => 1
  | .digit => 2
  | .integrity => 3
  | .range => 4
  | .command => 5

/-- The code of a command that succeeded (R23, R180). -/
def errNone : BitVec 4 := 0

/-- STATUS as it reads: ERR in bits [3:0], the others 0 (R23). -/
def statusWord (err : BitVec 4) : Word := err.setWidth 32

end Sys2Proof.Machine
end

