-- ==== Sys2Proof/Machine/Operands.lean ====
section
/-! DEFINITION. The operands: the input bytes of a command, and the registers of the window as a host reads and writes
them (20_memory.md R51, R54 to R57). -/

namespace Sys2Proof.Machine

/-- `ibuf_bytes()` of 00_scope.md R12, `IBUF[0:ILEN]`. The rule defines it for ILEN ≤ 16 alone, and every command checks ILEN
first (10_state.md R32). -/
def ibufBytes (b : Block) : List Byte := b.ibuf.toList.take b.ilen.toNat

/-- A generic command's input: RangeError when ILEN > 16 (R32, R105, R127, R143). -/
def genericInput (b : Block) : Except ErrorKind (List Byte) :=
  if b.ilen.toNat > 16 then .error .range else .ok (ibufBytes b)

/-- A serial-number command's input: FormatError when ILEN is not its length (R32, R158, R159). -/
def serialInput (len : Nat) (b : Block) : Except ErrorKind (List Byte) :=
  if b.ilen.toNat ≠ len then .error .format else .ok (ibufBytes b)

/-- The register at an offset of the window that is a multiple of 4 (R51); the offsets without a register are reserved. -/
def regAt (offset : Nat) : Reg :=
  match offset with
  | 0x00 => .cmd
  | 0x04 => .status
  | 0x08 => .crcPoly
  | 0x0C => .crcInit
  | 0x10 => .crcXorout
  | 0x14 => .crcCtrl
  | 0x18 => .crcAcc
  | 0x1C => .crcOut
  | 0x20 => .valueLo
  | 0x24 => .valueHi
  | 0x28 => .keyLo
  | 0x2C => .keyHi
  | 0x30 => .ilen
  | 0x34 => .olen
  | 0x40 => .ibuf 0
  | 0x44 => .ibuf 1
  | 0x48 => .ibuf 2
  | 0x4C => .ibuf 3
  | 0x50 => .obuf 0
  | 0x54 => .obuf 1
  | 0x58 => .obuf 2
  | 0x5C => .obuf 3
  | off => .reserved off

/-- `offset(REG)` of R51, as the host syntax of 30_encoding.md R76 uses it. -/
def regOffset : Reg → Nat
  | .cmd => 0x00
  | .status => 0x04
  | .crcPoly => 0x08
  | .crcInit => 0x0C
  | .crcXorout => 0x10
  | .crcCtrl => 0x14
  | .crcAcc => 0x18
  | .crcOut => 0x1C
  | .valueLo => 0x20
  | .valueHi => 0x24
  | .keyLo => 0x28
  | .keyHi => 0x2C
  | .ilen => 0x30
  | .olen => 0x34
  | .ibuf k => 0x40 + 4 * k.val
  | .obuf k => 0x50 + 4 * k.val
  | .reserved off => off

/-- Word `k` of a buffer: byte `4k + j` at bits [8j+7:8j] (R56). -/
def bufWord (buf : Vector Byte 16) (k : Fin 4) : Word :=
  wordOfBytes buf[4 * k.val] buf[4 * k.val + 1] buf[4 * k.val + 2] buf[4 * k.val + 3]

/-- The buffer after a write of word `k`: `BUF[4k+j] <- wdata[8j+7:8j]` (R56). -/
def setBufWord (buf : Vector Byte 16) (k : Fin 4) (d : Word) : Vector Byte 16 :=
  Vector.ofFn fun i => if i.val / 4 = k.val then d.extractLsb' (8 * (i.val % 4)) 8 else buf[i]

/-- The CRC_OUT view, computed at the read (R29). -/
def crcOut (b : Block) : Byte := crc8Finalize b.crcAcc b.refout b.crcXorout

/-- CRC_CTRL as it reads: REFIN is bit 0, REFOUT is bit 1 (R27). -/
def ctrlWord (refin refout : Bool) : Word :=
  (BitVec.ofBool refin).setWidth 32 ||| (BitVec.ofBool refout).setWidth 32 <<< 1

/-- The data of an admitted read (R51). Bits outside the fields, CMD and reserved offsets read as 0 (R54, R36). -/
def readReg (b : Block) : Reg → Word
  | .cmd => 0
  | .status => statusWord b.err
  | .crcPoly => b.crcPoly.setWidth 32
  | .crcInit => b.crcInit.setWidth 32
  | .crcXorout => b.crcXorout.setWidth 32
  | .crcCtrl => ctrlWord b.refin b.refout
  | .crcAcc => b.crcAcc.setWidth 32
  | .crcOut => (crcOut b).setWidth 32
  | .valueLo => dwordLo b.value
  | .valueHi => dwordHi b.value
  | .keyLo => dwordLo b.key
  | .keyHi => dwordHi b.key
  | .ilen => b.ilen.setWidth 32
  | .olen => b.olen.setWidth 32
  | .ibuf k => bufWord b.ibuf k
  | .obuf k => bufWord b.obuf k
  | .reserved _ => 0

/-- The block after an admitted write to a register other than CMD: the fields store their bits, and a write to a read-only
register or a reserved offset is ignored (R54, R55). CMD holds no state; what a write to it performs is `perform` (R36). -/
def writeReg (b : Block) (r : Reg) (d : Word) : Block :=
  match r with
  | .cmd => b
  | .status => b
  | .crcPoly => { b with crcPoly := d.extractLsb' 0 8 }
  | .crcInit => { b with crcInit := d.extractLsb' 0 8 }
  | .crcXorout => { b with crcXorout := d.extractLsb' 0 8 }
  | .crcCtrl => { b with refin := d.getLsbD 0, refout := d.getLsbD 1 }
  | .crcAcc => { b with crcAcc := d.extractLsb' 0 8 }
  | .crcOut => b
  | .valueLo => { b with value := dwordOfWords d (dwordHi b.value) }
  | .valueHi => { b with value := dwordOfWords (dwordLo b.value) d }
  | .keyLo => { b with key := dwordOfWords d (dwordHi b.key) }
  | .keyHi => { b with key := dwordOfWords (dwordLo b.key) d }
  | .ilen => { b with ilen := d.extractLsb' 0 5 }
  | .olen => b
  | .ibuf k => { b with ibuf := setBufWord b.ibuf k d }
  | .obuf _ => b
  | .reserved _ => b

end Sys2Proof.Machine
end

