-- ==== Sys2Proof/Machine/Ops.lean ====
section
/-! DEFINITION. The shared operations of the commands: the command frame of 44_system.md R172 and `set_obuf` of
10_state.md R33. The block takes no exception (60_exceptions.md R185): a failing command's whole effect is `fail`, and
nothing returns from it. -/

namespace Sys2Proof.Machine

/-- `set_obuf(s)` of R33, for `len(s) <= 16`: the bytes, zeros up to byte 15, and the length. -/
def setObuf (b : Block) (s : List Byte) : Block :=
  { b with obuf := Vector.ofFn fun i => s.getD i.val 0x00, olen := BitVec.ofNat 5 s.length }

/-- `ok()` of R172: STATUS.ERR <- 0, after every write of the rule. -/
def commandOk (b : Block) : Block := { b with err := errNone }

/-- `fail(E)` of R172 and R181: STATUS.ERR <- code(E), and nothing else. -/
def commandFail (b : Block) (e : ErrorKind) : Block := { b with err := errCode e }

/-- The command frame of R172. `r` is what the command's rule gives: the block after its writes, or the error of its first
failing check. Every command completes: an error is a status code, not a trap (R8, R185). -/
def finish (s : State) (r : Except ErrorKind Block) : Host.Outcome State Fault Refusal :=
  match r with
  | .ok b => .next { s with block := commandOk b }
  | .error e => .next { s with block := commandFail s.block e }

/-- A command's rule for an input, then for what the input gives. -/
def withInput (input : Except ErrorKind (List Byte)) (f : List Byte → Except ErrorKind Block) :
    Except ErrorKind Block :=
  match input with
  | .error e => .error e
  | .ok t => f t

/-- A text result into OBUF and OLEN, or the error that stands in its place. -/
def toObuf (b : Block) (r : Except ErrorKind (List Byte)) : Except ErrorKind Block :=
  match r with
  | .error e => .error e
  | .ok t => .ok (setObuf b t)

end Sys2Proof.Machine
end

