-- ==== Sys2Proof/Machine/Base36Commands.lean ====
section
/-! DEFINITION. The base-36 commands (40_base36.md R104, R105). -/

namespace Sys2Proof.Machine

/-- The rule of B36_ENC (R104). -/
def b36EncResult (minDigits : Nat) (b : Block) : Except ErrorKind Block :=
  let s := b36Encode b.value.toNat minDigits
  if s.length > 16 then .error .range else .ok (setObuf b s)

/-- B36_ENC (R104). -/
def execB36Enc (minDigits : Nat) (s : State) : Host.Outcome State Fault Refusal :=
  finish s (b36EncResult minDigits s.block)

/-- The rule of B36_DEC after its ILEN check (R105): DigitError before the range of the value. -/
def b36DecText (b : Block) (t : List Byte) : Except ErrorKind Block :=
  match b36Decode t with
  | .error e => .error e
  | .ok r => if r ≥ 2 ^ 64 then .error .range else .ok { b with value := BitVec.ofNat 64 r }

/-- B36_DEC (R105). -/
def execB36Dec (s : State) : Host.Outcome State Fault Refusal :=
  finish s (withInput (genericInput s.block) (b36DecText s.block))

end Sys2Proof.Machine
end

