-- ==== Sys2Proof/Machine/CrcCommands.lean ====
section
/-! DEFINITION. The CRC-8 commands (41_crc8.md R125 to R127). -/

namespace Sys2Proof.Machine

/-- CRC_RESET (R125): `CRC_ACC <- CRC_INIT`. -/
def execCrcReset (s : State) : Host.Outcome State Fault Refusal :=
  finish s (.ok { s.block with crcAcc := s.block.crcInit })

/-- The block after the bytes `t` are processed into CRC_ACC with CRC_POLY and REFIN. -/
def crcProcess (b : Block) (t : List Byte) : Block :=
  { b with crcAcc := crc8UpdateAll b.crcAcc t b.crcPoly b.refin }

/-- CRC_BYTE (R126): one byte, given in the command word. -/
def execCrcByte (data : Byte) (s : State) : Host.Outcome State Fault Refusal :=
  finish s (.ok { s.block with crcAcc := crc8Update s.block.crcAcc data s.block.crcPoly s.block.refin })

/-- CRC_BUF (R127): the bytes in IBUF. -/
def execCrcBuf (s : State) : Host.Outcome State Fault Refusal :=
  finish s (withInput (genericInput s.block) fun t => .ok (crcProcess s.block t))

end Sys2Proof.Machine
end

