-- ==== Sys2Proof/Machine/Sha256.lean ====
section
/-! DEFINITION. SHA-256 (42_hashkey.md R140). The spec names the function and its 32-byte output and leaves the algorithm to
FIPS 180-4 "from general knowledge"; this file is that algorithm, PRESUMED (log 5). -/

namespace Sys2Proof.Machine

/-- Rotate right by `n`, for `n` below 32. -/
def shaRotr (x : Word) (n : Nat) : Word := (x >>> n) ||| (x <<< (32 - n))

def shaCh (x y z : Word) : Word := (x &&& y) ^^^ (~~~x &&& z)

def shaMaj (x y z : Word) : Word := (x &&& y) ^^^ (x &&& z) ^^^ (y &&& z)

def shaBigSigma0 (x : Word) : Word := shaRotr x 2 ^^^ shaRotr x 13 ^^^ shaRotr x 22

def shaBigSigma1 (x : Word) : Word := shaRotr x 6 ^^^ shaRotr x 11 ^^^ shaRotr x 25

def shaSmallSigma0 (x : Word) : Word := shaRotr x 7 ^^^ shaRotr x 18 ^^^ (x >>> 3)

def shaSmallSigma1 (x : Word) : Word := shaRotr x 17 ^^^ shaRotr x 19 ^^^ (x >>> 10)

/-- The first 64 primes, in order; FIPS 180-4 makes its constants from them. -/
def shaPrimes : List Nat :=
  [2, 3, 5, 7, 11, 13, 17, 19, 23, 29, 31, 37, 41, 43, 47, 53,
   59, 61, 67, 71, 73, 79, 83, 89, 97, 101, 103, 107, 109, 113, 127, 131] ++
  [137, 139, 149, 151, 157, 163, 167, 173, 179, 181, 191, 193, 197, 199, 211, 223,
   227, 229, 233, 239, 241, 251, 257, 263, 269, 271, 277, 281, 283, 293, 307, 311]

/-- The largest number below `r + 2 ^ bits` whose `k`-th power is at most `n`, where that of `r` is: its bits are tried from
the highest down. -/
def shaRootFrom (k n : Nat) : (bits r : Nat) → Nat
  | 0, r => r
  | bits + 1, r => shaRootFrom k n bits (bif ((r + 2 ^ bits) ^ k).ble n then r + 2 ^ bits else r)

/-- The first 32 bits of the fraction of the `k`-th root of `p`: the integer root of `p` scaled by 2^(32k), without its bits
from 32 up. 35 bits hold the root, since every root taken is below 8. -/
def shaRootFraction (k p : Nat) : Word := BitVec.ofNat 32 (shaRootFrom k (p * 2 ^ (32 * k)) 35 0)

/-- The 64 round constants: from the cube roots of the first 64 primes. -/
def shaRoundConstants : List Word := shaPrimes.map (shaRootFraction 3)

/-- The eight words of a hash value, and of the working variables. -/
structure ShaHash where
  a : Word
  b : Word
  c : Word
  d : Word
  e : Word
  f : Word
  g : Word
  h : Word
  deriving DecidableEq, Repr

/-- The initial hash value: from the square roots of the first 8 primes. -/
def shaInitial : ShaHash where
  a := shaRootFraction 2 2
  b := shaRootFraction 2 3
  c := shaRootFraction 2 5
  d := shaRootFraction 2 7
  e := shaRootFraction 2 11
  f := shaRootFraction 2 13
  g := shaRootFraction 2 17
  h := shaRootFraction 2 19

/-- One round, with the round constant `k` and the schedule word `w`. -/
def shaRound (v : ShaHash) (k w : Word) : ShaHash :=
  let t1 := v.h + shaBigSigma1 v.e + shaCh v.e v.f v.g + k + w
  let t2 := shaBigSigma0 v.a + shaMaj v.a v.b v.c
  { a := t1 + t2, b := v.a, c := v.b, d := v.c, e := v.d + t1, f := v.e, g := v.f, h := v.g }

/-- The message schedule, newest word first: `n` more words after those of `ws`. -/
def shaSchedule : Nat → List Word → List Word
  | 0, ws => ws
  | n + 1, ws =>
    shaSchedule n
      ((shaSmallSigma1 (ws.getD 1 0) + ws.getD 6 0 + shaSmallSigma0 (ws.getD 14 0) + ws.getD 15 0) :: ws)

/-- The hash value after one block of 16 words. -/
def shaCompress (v : ShaHash) (blk : List Word) : ShaHash :=
  let ws := (shaSchedule 48 blk.reverse).reverse
  let r := (shaRoundConstants.zip ws).foldl (fun u kw => shaRound u kw.1 kw.2) v
  { a := v.a + r.a, b := v.b + r.b, c := v.c + r.c, d := v.d + r.d,
    e := v.e + r.e, f := v.f + r.f, g := v.g + r.g, h := v.h + r.h }

/-- The hash value after `n` blocks of 16 words. -/
def shaBlocks : Nat → ShaHash → List Word → ShaHash
  | 0, v, _ => v
  | n + 1, v, ws => shaBlocks n (shaCompress v (ws.take 16)) (ws.drop 16)

/-- The bytes of a word, most significant first. -/
def shaBytes (w : Word) : List Byte :=
  [w.extractLsb' 24 8, w.extractLsb' 16 8, w.extractLsb' 8 8, w.extractLsb' 0 8]

/-- The words of a byte string whose length is a multiple of 4, most significant byte first. -/
def shaWords : List Byte → List Word
  | b0 :: b1 :: b2 :: b3 :: rest => wordOfBytes b3 b2 b1 b0 :: shaWords rest
  | _ => []

/-- The padded message: the bit 1, zeros, and the length in bits as 64 bits; its length is a multiple of 64 bytes. -/
def shaPad (m : List Byte) : List Byte :=
  let bits := BitVec.ofNat 64 (8 * m.length)
  m ++ [0x80] ++ List.replicate ((119 - m.length % 64) % 64) 0x00 ++
    shaBytes (bits.extractLsb' 32 32) ++ shaBytes (bits.extractLsb' 0 32)

/-- `sha256(t)` of R140: the 32 digest bytes. -/
def sha256 (t : List Byte) : List Byte :=
  let ws := shaWords (shaPad t)
  let v := shaBlocks (ws.length / 16) shaInitial ws
  shaBytes v.a ++ shaBytes v.b ++ shaBytes v.c ++ shaBytes v.d ++
    shaBytes v.e ++ shaBytes v.f ++ shaBytes v.g ++ shaBytes v.h

end Sys2Proof.Machine
end

