-- ==== Sys2Proof/Machine/HashKey.lean ====
section
/-! DEFINITION. The hash-to-key function of 42_hashkey.md R141. -/

namespace Sys2Proof.Machine

/-- The first 8 bytes of a digest as a big-endian 64-bit number (R141). -/
def keyOfDigest (d : List Byte) : DWord :=
  dwordOfWords (wordOfBytes (d.getD 7 0) (d.getD 6 0) (d.getD 5 0) (d.getD 4 0))
    (wordOfBytes (d.getD 3 0) (d.getD 2 0) (d.getD 1 0) (d.getD 0 0))

/-- `hash_key(t)` of R141. -/
def hashKey (t : List Byte) : DWord := keyOfDigest (sha256 t)

end Sys2Proof.Machine
end

