-- ==== Sys2Proof/Machine/HashCommands.lean ====
section
/-! DEFINITION. The hash-to-key command (42_hashkey.md R143). -/

namespace Sys2Proof.Machine

/-- HKEY (R143): `KEY <- hash_key(IBUF[0:ILEN])`. -/
def execHkey (s : State) : Host.Outcome State Fault Refusal :=
  finish s (withInput (genericInput s.block) fun t => .ok { s.block with key := hashKey t })

end Sys2Proof.Machine
end

