-- ==== Sys2Proof/Machine/SerialNumber.lean ====
section
/-! DEFINITION. The serial-number functions of 43_serial.md R150, R153 and R154. They take byte strings and read no
block state (R156, R162). -/

namespace Sys2Proof.Machine

open Sys2Proof.Config

/-- `mask50(x, key)` of R150, on naturals: only bits [49:0] of `x` change. -/
def mask50 (x : Nat) (key : DWord) : Nat := x ^^^ (key &&& m50).toNat

/-- Steps 5 to 7 of R153, after the CRC and the device number are known. -/
def snEncodeMasked (crc : Byte) (dev : Nat) : Except ErrorKind (List Byte) :=
  let e := rbPrefix ++ b36Encode (mask50 dev (hashKey [crc])) digitsMasked ++ b36Encode crc.toNat digitsCrc
  if e.length ≠ encLen then .error .format else .ok e

/-- `sn_encode(p)` of R153; the first failing step decides the error. -/
def snEncode (p : List Byte) : Except ErrorKind (List Byte) :=
  if p.length ≠ plainLen ∨ p.take 2 ≠ rbPrefix then .error .format
  else
    match b36Decode ((p.drop 2).take 10) with
    | .error e => .error e
    | .ok dev => snEncodeMasked (crc8Cdma2000 p) dev

/-- Steps 6 to 8 of R154: the candidate of the device number `dev`, checked against the CRC `c`. -/
def snVerify (c dev : Nat) : Except ErrorKind (List Byte) :=
  let cand := rbPrefix ++ b36Encode dev digitsMasked
  if (crc8Cdma2000 cand).toNat ≠ c then .error .integrity
  else if cand.length ≠ plainLen then .error .format
  else .ok cand

/-- `sn_decode(e)` of R154; the first failing step decides the error. -/
def snDecode (e : List Byte) : Except ErrorKind (List Byte) :=
  if e.length ≠ encLen ∨ e.take 2 ≠ rbPrefix then .error .format
  else
    match b36Decode ((e.drop 12).take 2) with
    | .error err => .error err
    | .ok c =>
      if c > 255 then .error .integrity
      else
        match b36Decode ((e.drop 2).take 10) with
        | .error err => .error err
        | .ok masked => snVerify c (mask50 masked (hashKey [BitVec.ofNat 8 c]))

end Sys2Proof.Machine
end

