-- ==== Sys2Proof/Machine/SerialCommands.lean ====
section
/-! DEFINITION. The serial-number commands (43_serial.md R157 to R159). -/

namespace Sys2Proof.Machine

open Sys2Proof.Config

/-- SN_MASK (R157): `VALUE <- VALUE ^ (KEY & M50)`. -/
def execSnMask (s : State) : Host.Outcome State Fault Refusal :=
  finish s (.ok { s.block with value := s.block.value ^^^ (s.block.key &&& m50) })

/-- SN_ENC (R158). -/
def execSnEnc (s : State) : Host.Outcome State Fault Refusal :=
  finish s (withInput (serialInput plainLen s.block) fun p => toObuf s.block (snEncode p))

/-- SN_DEC (R159). -/
def execSnDec (s : State) : Host.Outcome State Fault Refusal :=
  finish s (withInput (serialInput encLen s.block) fun e => toObuf s.block (snDecode e))

end Sys2Proof.Machine
end

