-- ==== Sys2Proof/Machine/SystemCommands.lean ====
section
/-! DEFINITION. NOP and the illegal word (44_system.md R170, R171). -/

namespace Sys2Proof.Machine

/-- NOP (R170): `ok()`. -/
def execNop (s : State) : Host.Outcome State Fault Refusal := finish s (.ok s.block)

/-- An illegal command word (R171): STATUS.ERR <- 5, and nothing else. -/
def performIllegal (s : State) : Host.Outcome State Fault Refusal := finish s (.error .command)

end Sys2Proof.Machine
end

