-- ==== Sys2Proof/Machine/Dispatch.lean ====
section
/-! DEFINITION. One arm per command of the opcode table (30_encoding.md R73). -/

namespace Sys2Proof.Machine

def exec (i : Instr) (s : State) : Host.Outcome State Fault Refusal :=
  match i with
  | .nop => Sys2Proof.Machine.execNop s
  | .b36Enc minDigits => Sys2Proof.Machine.execB36Enc minDigits s
  | .b36Dec => Sys2Proof.Machine.execB36Dec s
  | .crcReset => Sys2Proof.Machine.execCrcReset s
  | .crcByte data => Sys2Proof.Machine.execCrcByte data s
  | .crcBuf => Sys2Proof.Machine.execCrcBuf s
  | .hkey => Sys2Proof.Machine.execHkey s
  | .snMask => Sys2Proof.Machine.execSnMask s
  | .snEnc => Sys2Proof.Machine.execSnEnc s
  | .snDec => Sys2Proof.Machine.execSnDec s

end Sys2Proof.Machine
end

