-- ==== Sys2Proof/Machine/Transact.lean ====
section
/-! DEFINITION. One host transaction (00_scope.md R8, 20_memory.md R53 to R55, 44_system.md R172), and the reset line
(70_reset_and_hazards.md R200). -/

namespace Sys2Proof.Machine

/-- The offset of an absolute address in the window of base `base`; `none` outside the window, where a transaction is not one
of this block (R52, log 13). -/
def windowOffset (base addr : Nat) : Option Nat :=
  if base ≤ addr ∧ addr < base + Sys2Proof.Config.windowBytes then some (addr - base) else none

/-- The block admits only 32-bit accesses at offsets that are multiples of 4 (R53), and none while reset is held (R200). -/
def admitted (resetHeld : Bool) (offset widthBits : Nat) : Bool :=
  !resetHeld && widthBits == 32 && offset % 4 == 0

/-- `perform(w)` of R172: the command that `w` encodes, or CommandError. -/
def perform (w : Word) (s : State) : Host.Outcome State Fault Refusal :=
  match decode w with
  | .ok i => exec i s
  | .error _ => performIllegal s

/-- An admitted write: to CMD it performs a command, to any other register it stores (R36, R55). -/
def writeAt (r : Reg) (d : Word) (s : State) : Host.Outcome State Fault Refusal :=
  match r with
  | .cmd => perform d s
  | r => .next { s with block := writeReg s.block r d }

/-- One transaction of the block, at an offset of its window, and what the host is answered. As in R8: the next state, with
the read data for a read, or a bus error, which is a fault of that transaction. -/
def transact (offset : Nat) (t : Transaction) (s : State) :
    Host.Outcome (State × Response) Fault Refusal :=
  if admitted s.resetHeld offset t.widthBits = false then .fault .busError
  else
    match t.access with
    | .read => .next (s, .readData (readReg s.block (regAt offset)))
    | .write d =>
      match writeAt (regAt offset) d s with
      | .next s' => .next (s', .writeDone)
      | .fault f => .fault f
      | .refused r => .refused r

/-- Answer the host on the transaction just performed (R8, log 10). -/
def respond (r : Response) (s : State) : State := { s with responses := s.responses ++ [r] }

/-- A transaction at an absolute address. Outside the window it is not the block's (R52). A fault of the transaction is
reported to the host, and the block goes on in the unchanged state (R53, log 2). -/
def stepTransaction (t : Transaction) (s : State) : Host.Outcome State Fault Refusal :=
  match windowOffset s.coreBase t.addr with
  | none => .next s
  | some offset =>
    match transact offset t s with
    | .next (s', r) => .next (respond r s')
    | .fault f => .next (respond (.fault f) s)
    | .refused r => .refused r

/-- Reset is asserted (R200): every piece of the block's state takes its value of R40, and reset is held. -/
def stepResetAssert (s : State) : State := { s with block := Block.reset, resetHeld := true }

/-- Reset is released (R200): transactions are admitted again. -/
def stepResetRelease (s : State) : State := { s with resetHeld := false }

/-- One event from outside. -/
def stepEvent (e : BusEvent) (s : State) : Host.Outcome State Fault Refusal :=
  match e with
  | .transaction t => stepTransaction t s
  | .resetAssert => .next (stepResetAssert s)
  | .resetRelease => .next (stepResetRelease s)

/-- The event that is an admitted write of the word `w` to the register `r` of the window at `base` (R52, R76). -/
def writeEvent (base : Nat) (r : Reg) (w : Word) : BusEvent :=
  .transaction { addr := base + regOffset r, widthBits := 32, access := .write w }

/-- The event that is an admitted read of the register `r` of the window at `base` (R52, R76). -/
def readEvent (base : Nat) (r : Reg) : BusEvent :=
  .transaction { addr := base + regOffset r, widthBits := 32, access := .read }

/-- The machine with the word `w` as the next command: an admitted write of it to CMD is the next event (R36). -/
def offerCommand (w : Word) (s : State) : State :=
  { s with pending := writeEvent s.coreBase .cmd w :: s.pending, resetHeld := false }

end Sys2Proof.Machine
end

