-- ==== Sys2Proof/Machine/Step.lean ====
section
/-! DEFINITION. The step: the next event of those pending, whole (00_scope.md R7, R8; 20_memory.md R59, R60). -/

namespace Sys2Proof.Machine

/-- One step: the oldest pending event is taken and performed. With nothing pending the block idles, and its state is final
(R192, R211, log 6). -/
def step (s : State) : Host.Outcome State Fault Refusal :=
  match s.pending with
  | [] => .next s
  | e :: rest => stepEvent e { s with pending := rest }

/-- The command whose bits are `w` as the next event: a write of it to CMD. The block fetches no instruction (R21), so a
command comes from a host's transaction; the write is placed first, and reset is not held (log 8). -/
def State.withFetchWord (s : State) (_nbits w : Nat) : State := offerCommand (BitVec.ofNat 32 w) s

end Sys2Proof.Machine
end

