-- ==== Sys2Proof/Machine/HostProgram.lean ====
section
/-! DEFINITION. Host programs: the transaction syntax of 30_encoding.md R76 and the pseudo-instructions of R77, as lists of
events for the window at `base`. They are the hosts' side; the block sees the events alone (log 12). -/

namespace Sys2Proof.Machine

/-- `wr <REG>, <imm32>` (R76). -/
def hostWr (base : Nat) (r : Reg) (w : Word) : List BusEvent := [writeEvent base r w]

/-- `rd <REG>` (R76). -/
def hostRd (base : Nat) (r : Reg) : List BusEvent := [readEvent base r]

/-- `<mnemonic> [<imm8>]` (R76): a write of the command's word to CMD. -/
def hostCommand (base : Nat) (i : Instr) : List BusEvent := [writeEvent base .cmd (encode i)]

/-- Word `k` of the bytes `t`, zero-filled, packed by 20_memory.md R56. -/
def packedWord (t : List Byte) (k : Nat) : Word :=
  wordOfBytes (t.getD (4 * k) 0) (t.getD (4 * k + 1) 0) (t.getD (4 * k + 2) 0) (t.getD (4 * k + 3) 0)

/-- `ld.ibuf "<text>"` and `ld.ibuf.bytes b0, b1, ...` (R77), for 0 to 16 bytes: all four words, then the length. -/
def hostLdIbuf (base : Nat) (t : List Byte) : List BusEvent :=
  [writeEvent base (.ibuf 0) (packedWord t 0), writeEvent base (.ibuf 1) (packedWord t 1),
   writeEvent base (.ibuf 2) (packedWord t 2), writeEvent base (.ibuf 3) (packedWord t 3),
   writeEvent base .ilen (BitVec.ofNat 32 t.length)]

/-- `ld.value v` (R77): VALUE_LO, then VALUE_HI. -/
def hostLdValue (base : Nat) (v : DWord) : List BusEvent :=
  [writeEvent base .valueLo (dwordLo v), writeEvent base .valueHi (dwordHi v)]

/-- `ld.key v` (R77): KEY_LO, then KEY_HI. -/
def hostLdKey (base : Nat) (v : DWord) : List BusEvent :=
  [writeEvent base .keyLo (dwordLo v), writeEvent base .keyHi (dwordHi v)]

/-- `crc.cfg poly, init, refin, refout, xorout` (R77). It does not reset CRC_ACC. -/
def hostCrcCfg (base : Nat) (p : Sys2Proof.Config.CrcParams) : List BusEvent :=
  [writeEvent base .crcPoly (p.poly.setWidth 32), writeEvent base .crcInit (p.init.setWidth 32),
   writeEvent base .crcCtrl (ctrlWord p.refin p.refout),
   writeEvent base .crcXorout (p.xorout.setWidth 32)]

/-- `rd.obuf` (R77): OLEN, then OBUF0 to OBUF3. -/
def hostRdObuf (base : Nat) : List BusEvent :=
  [readEvent base .olen, readEvent base (.obuf 0), readEvent base (.obuf 1), readEvent base (.obuf 2),
   readEvent base (.obuf 3)]

/-- `mv.obuf.ibuf` (R77): `rd.obuf`, then the words read are written to IBUF0 to IBUF3 and ILEN. The words are the host's: it
has them from the answers to the reads. -/
def hostMvObufIbuf (base : Nat) (olen w0 w1 w2 w3 : Word) : List BusEvent :=
  hostRdObuf base ++
    [writeEvent base (.ibuf 0) w0, writeEvent base (.ibuf 1) w1, writeEvent base (.ibuf 2) w2,
     writeEvent base (.ibuf 3) w3, writeEvent base .ilen olen]

end Sys2Proof.Machine
end

