-- ==== Sys2Proof/Safety.lean ====
section
/-! DEFINITION. What a safe run is, and the terms the claims are stated in: the invariant of the machine, runs of a list of
events, interleavings of hosts, and the spec's own words about texts, written apart from the functions of Machine/. -/

namespace Sys2Proof.Safety

open Sys2Proof.Machine

/-- The base-36 alphabet as 40_base36.md R100 lists it: "0123456789ABCDEFGHIJKLMNOPQRSTUVWXYZ". -/
def alphabet : List Byte :=
  [0x30, 0x31, 0x32, 0x33, 0x34, 0x35, 0x36, 0x37, 0x38, 0x39,
   0x41, 0x42, 0x43, 0x44, 0x45, 0x46, 0x47, 0x48, 0x49, 0x4A, 0x4B, 0x4C, 0x4D,
   0x4E, 0x4F, 0x50, 0x51, 0x52, 0x53, 0x54, 0x55, 0x56, 0x57, 0x58, 0x59, 0x5A]

/-- A text of alphabet bytes. -/
def IsText (t : List Byte) : Prop := ∀ c ∈ t, c ∈ alphabet

/-- The number that a text of alphabet bytes spells, most significant digit first: a digit's value is its place in the
alphabet. -/
def textValue (t : List Byte) : Nat := t.foldl (fun r c => r * 36 + alphabet.idxOf c) 0

/-- What holds of the block in every run (10_state.md R33, R39; 70_reset_and_hazards.md R207). -/
structure BlockInv (b : Block) : Prop where
  /-- "The values 6 to 15 are never written" (R39). -/
  err_le : b.err.toNat ≤ 5
  /-- OLEN "is 0 to 16" (R33). -/
  olen_le : b.olen.toNat ≤ 16
  /-- "OBUF bytes at index OLEN and above read as 0x00" (R207). -/
  obuf_tail : ∀ i : Fin 16, b.olen.toNat ≤ i.val → b.obuf[i] = 0
  /-- Every output is a text in the base-36 alphabet (R100, R101, R151, R152). -/
  obuf_text : ∀ i : Fin 16, i.val < b.olen.toNat → b.obuf[i] ∈ alphabet

/-- What holds of the machine in every run. -/
structure Inv (s : State) : Prop where
  block : BlockInv s.block
  /-- CORE_BASE "must be a multiple of 128" (R52). -/
  base : s.coreBase % 128 = 0
  /-- While reset is held the block stays at its reset values (R200). -/
  held : s.resetHeld = true → s.block = Block.reset

/-- The run of a list of events from `s`, in their order (R60). -/
def runEvents (es : List BusEvent) (s : State) : Host.Outcome State Fault Refusal :=
  Host.Core.run Sys2Proof.core es.length { s with pending := es }

/-- `l` is an interleaving of the events of two hosts, each in its own order (20_memory.md R61). -/
inductive Interleaving : List BusEvent → List BusEvent → List BusEvent → Prop
  | nil : Interleaving [] [] []
  | left {p q l : List BusEvent} (e : BusEvent) : Interleaving p q l → Interleaving (e :: p) q (e :: l)
  | right {p q l : List BusEvent} (e : BusEvent) : Interleaving p q l → Interleaving p (e :: q) (e :: l)

/-- A host's read, of any address and width. -/
def IsRead (e : BusEvent) : Prop := ∃ t : Transaction, e = .transaction t ∧ t.access = .read

/-- An event that is a transaction of the block whose window is at `base` (R52). -/
def inWindow (base : Nat) (e : BusEvent) : Bool :=
  match e with
  | .transaction t => decide (base ≤ t.addr) && decide (t.addr < base + 128)
  | .resetAssert => false
  | .resetRelease => false

/-- The event is an admitted write of `d` at `offset` of the window, in a machine where reset is not held. -/
def IsWriteAt (s : State) (e : BusEvent) (offset : Nat) (d : Word) : Prop :=
  s.resetHeld = false ∧ e = .transaction { addr := s.coreBase + offset, widthBits := 32, access := .write d }

/-- The same outcome with its state changed by `f`. -/
def mapNext (f : State → State) (o : Host.Outcome State Fault Refusal) : Host.Outcome State Fault Refusal :=
  match o with
  | .next s => .next (f s)
  | .fault r => .fault r
  | .refused r => .refused r

/-- One CRC_BYTE command for each byte, in order (41_crc8.md R128). -/
def feedBytes : List Byte → State → Host.Outcome State Fault Refusal
  | [], s => .next s
  | c :: t, s =>
    match exec (.crcByte c) s with
    | .next s' => feedBytes t s'
    | .fault r => .fault r
    | .refused r => .refused r

/-- An event of a window moved by `n`. -/
def moveEvent (n : Nat) (e : BusEvent) : BusEvent :=
  match e with
  | .transaction t => .transaction { t with addr := t.addr + n }
  | .resetAssert => .resetAssert
  | .resetRelease => .resetRelease

/-- The machine with its window, and every pending transaction, moved by `n` (R52). -/
def moveBase (n : Nat) (s : State) : State :=
  { s with coreBase := s.coreBase + n, pending := s.pending.map (moveEvent n) }

/-- The loop of 41_crc8.md R122 as the source writes it, on naturals, without a mask inside the byte. -/
def crcNatLoop (poly : Nat) : Nat → Nat → Nat
  | 0, s => s
  | n + 1, s => crcNatLoop poly n (if s.testBit 7 then (s <<< 1) ^^^ poly else s <<< 1)

/-- `n` steps of the usual right-shifting reflected CRC, with the reflected polynomial `p` (R130). -/
def crcRightShifts (p : Byte) : Nat → Byte → Byte
  | 0, s => s
  | n + 1, s => crcRightShifts p n (if s.getLsbD 0 then (s >>> 1) ^^^ p else s >>> 1)

/-- The opcode of a command, as the table of 30_encoding.md R73 lists it. -/
def tableOpcode : Instr → Nat
  | .nop => 0x00
  | .b36Enc _ => 0x10
  | .b36Dec => 0x11
  | .crcReset => 0x20
  | .crcByte _ => 0x21
  | .crcBuf => 0x22
  | .hkey => 0x30
  | .snMask => 0x40
  | .snEnc => 0x41
  | .snDec => 0x42

/-- The IMM8 field of a command: its immediate, or 0 for an opcode that takes none (R73). -/
def tableImm : Instr → Nat
  | .b36Enc minDigits => minDigits
  | .crcByte data => data.toNat
  | .nop | .b36Dec | .crcReset | .crcBuf | .hkey | .snMask | .snEnc | .snDec => 0

/-- `match` and `mask` of the rows of the opcode table (R73). -/
def tableRows : List (Word × Word) :=
  [(0x00000000, 0xFFFFFFFF), (0x00000010, 0xFFFF00FF), (0x00000011, 0xFFFFFFFF), (0x00000020, 0xFFFFFFFF),
   (0x00000021, 0xFFFF00FF), (0x00000022, 0xFFFFFFFF), (0x00000030, 0xFFFFFFFF), (0x00000040, 0xFFFFFFFF),
   (0x00000041, 0xFFFFFFFF), (0x00000042, 0xFFFFFFFF)]

/-- The codes that a command can leave in STATUS.ERR (60_exceptions.md R180, R182). -/
def tableCodes : Instr → List (BitVec 4)
  | .nop => [0]
  | .b36Enc _ => [0, 4]
  | .b36Dec => [0, 2, 4]
  | .crcReset => [0]
  | .crcByte _ => [0]
  | .crcBuf => [0, 4]
  | .hkey => [0, 4]
  | .snMask => [0]
  | .snEnc => [0, 1, 2]
  | .snDec => [0, 1, 2, 3]

end Sys2Proof.Safety
end

