-- ==== Sys2Proof/Certificates/Slice0/Obligations.lean ====
section
/-! DEFINITION. The statements about SN-CODEC CORE, file by file of spec/. -/

open Sys2Proof Sys2Proof.Machine Sys2Proof.Safety Sys2Proof.Config

/-! ## 30_encoding.md -/

/-- R78: the encoding examples, legal and illegal. -/
def Obligations.SpecWordsDecodeToTheirCommands : Prop :=
  encode .nop = 0x00000000 ∧ encode (.crcByte 0x31) = 0x00003121 ∧ encode (.b36Enc 10) = 0x00000A10 ∧
  encode .snEnc = 0x00000041 ∧
  decode 0x00000000 = .ok .nop ∧
  decode 0x00003121 = .ok (.crcByte 0x31) ∧
  decode 0x00000A10 = .ok (.b36Enc 10) ∧
  decode 0x00000041 = .ok .snEnc ∧
  decode 0x00000120 = .error .immediateNonzero ∧
  decode 0x00010041 = .error .reservedNonzero ∧
  decode 0x000000FF = .error .unassignedOpcode

/-- R72: every word has exactly one outcome; it is CommandError exactly for the three kinds of R75, and a command has the
word's OPC and IMM8. -/
def Obligations.EveryWordDecodesByRule : Prop :=
  ∀ w : Word,
    ((∃ e, decode w = .error e) ↔
      w.toNat / 65536 ≠ 0 ∨
      w.toNat % 256 ∉ [0x00, 0x10, 0x11, 0x20, 0x21, 0x22, 0x30, 0x40, 0x41, 0x42] ∨
      (w.toNat % 256 ∉ [0x21, 0x10] ∧ w.toNat / 256 % 256 ≠ 0)) ∧
    (∀ i, decode w = .ok i → tableOpcode i = w.toNat % 256 ∧ tableImm i = w.toNat / 256 % 256)

/-- R70, R72, R73, R74: decoding and encoding agree, both ways, for every command with every operand its word can hold. -/
def Obligations.DecodeAndEncodeAgree : Prop :=
  ∀ (w : Word) (i : Instr), decode w = .ok i ↔ (i.wf = true ∧ encode i = w)

/-- R73: the words that decode are exactly those that a row of the opcode table matches under its mask, and no word is
matched by two rows. -/
def Obligations.LegalWordsMatchExactlyOneTableRow : Prop :=
  ∀ w : Word,
    ((∃ i, decode w = .ok i) ↔ ∃ row ∈ tableRows, w &&& row.2 = row.1) ∧
    (∀ row ∈ tableRows, ∀ row' ∈ tableRows, w &&& row.2 = row.1 → w &&& row'.2 = row'.1 → row = row')

/-! ## 10_state.md and 70_reset_and_hazards.md: reset -/

/-- R40: the reset values. -/
def Obligations.ResetStateHoldsSpecValues : Prop :=
  State.reset.block.err = 0 ∧
  State.reset.block.crcPoly = 0x9B ∧ State.reset.block.crcInit = 0xFF ∧ State.reset.block.crcXorout = 0x00 ∧
  State.reset.block.refin = false ∧ State.reset.block.refout = false ∧
  State.reset.block.crcAcc = 0xFF ∧
  State.reset.block.value = 0 ∧ State.reset.block.key = 0 ∧
  State.reset.block.ilen = 0 ∧ State.reset.block.olen = 0 ∧
  (∀ i : Fin 16, State.reset.block.ibuf[i] = 0x00 ∧ State.reset.block.obuf[i] = 0x00)

/-- R200: the reset event puts the block at its reset values; while reset is held no transaction of the block is admitted and
the block stays as it is; after the release transactions are admitted again. That reset has two edges, and that the
machine goes on after a refused transaction, is the model's reading (logs 4 and 2). -/
def Obligations.ResetEventRestoresAndHoldsOffTheHosts : Prop :=
  ∀ (s : State) (rest : List BusEvent),
    (s.pending = .resetAssert :: rest →
      step s = .next { s with block := State.reset.block, resetHeld := true, pending := rest }) ∧
    (s.pending = .resetRelease :: rest → step s = .next { s with resetHeld := false, pending := rest }) ∧
    (∀ t : Transaction, s.resetHeld = true → s.pending = .transaction t :: rest →
      inWindow s.coreBase (.transaction t) = true →
      step s = .next { s with pending := rest, responses := s.responses ++ [.fault .busError] })

/-! ## 20_memory.md: the window -/

/-- R172, R36: when the next event is an admitted write to CMD of a word that decodes to a command, the step is that command's
meaning, on the state with the event taken, and the host's answer after it. The list of pending events and the answers are
the model's own (logs 1 and 10). -/
def Obligations.StepPerformsTheDecodedCommand : Prop :=
  ∀ (s t : State) (e : BusEvent) (rest : List BusEvent) (w : Word) (i : Instr),
    s.pending = e :: rest → IsWriteAt s e 0x00 w → decode w = .ok i →
    exec i { s with pending := rest } = .next t →
    step s = .next { t with responses := t.responses ++ [.writeDone] }

/-- R171: an illegal command word sets STATUS.ERR to 5 and changes nothing else of the block. The list of pending events and
the answers are the model's own (logs 1 and 10). -/
def Obligations.IllegalWordOnlySetsCommandError : Prop :=
  ∀ (s : State) (e : BusEvent) (rest : List BusEvent) (w : Word) (err : DecodeError),
    s.pending = e :: rest → IsWriteAt s e 0x00 w → decode w = .error err →
    step s = .next { s with
      pending := rest
      block := { s.block with err := 5 }
      responses := s.responses ++ [.writeDone] }

/-- R53, R200: the transaction is refused with a bus error, and has no successor state, exactly when it is not a 32-bit access
at an offset that is a multiple of 4 or reset is held. That reset can be held over transactions, and that an access is judged
by its start address and width, are the model's reading (logs 4 and 7). -/
def Obligations.OnlyAlignedWordAccessesAreAdmitted : Prop :=
  ∀ (offset : Nat) (t : Transaction) (s : State),
    (transact offset t s = .fault .busError ↔ s.resetHeld = true ∨ t.widthBits ≠ 32 ∨ offset % 4 ≠ 0) ∧
    (∀ f, transact offset t s = .fault f → f = .busError) ∧
    (∀ r, transact offset t s ≠ .refused r)

/-- R53 and log 2: a refused transaction changes nothing of the block, performs no command and leaves STATUS.ERR, and the bus
error is its host's answer; that the machine then goes on is the model's reading (log 2). -/
def Obligations.RefusedTransactionChangesNothingAndIsReported : Prop :=
  ∀ (s : State) (t : Transaction) (rest : List BusEvent),
    s.pending = .transaction t :: rest → inWindow s.coreBase (.transaction t) = true →
    (t.widthBits ≠ 32 ∨ (t.addr - s.coreBase) % 4 ≠ 0) →
    step s = .next { s with pending := rest, responses := s.responses ++ [.fault .busError] }

/-- R55, R59, R60: an admitted read answers the register's value and changes nothing; an admitted write to a register other
than CMD stores and does nothing else. The list of pending events and the answers are the model's own (logs 1 and 10). -/
def Obligations.AdmittedAccessesReadOrStore : Prop :=
  ∀ (s : State) (rest : List BusEvent) (offset : Nat),
    s.resetHeld = false → offset < 128 → offset % 4 = 0 →
    (s.pending = .transaction { addr := s.coreBase + offset, widthBits := 32, access := .read } :: rest →
      step s = .next { s with
        pending := rest, responses := s.responses ++ [.readData (readReg s.block (regAt offset))] }) ∧
    (∀ d : Word, offset ≠ 0 →
      s.pending = .transaction { addr := s.coreBase + offset, widthBits := 32, access := .write d } :: rest →
      step s = .next { s with
        pending := rest
        block := writeReg s.block (regAt offset) d
        responses := s.responses ++ [.writeDone] })

/-- R51: the offset of every register, and the fields each register shows, with 0 in every other bit: CRC_OUT is computed
(R29), and a word of IBUF or OBUF shows four bytes (R56). -/
def Obligations.WindowShowsEveryRegisterAtItsOffset : Prop :=
  (regAt 0x00 = .cmd ∧ regAt 0x04 = .status ∧ regAt 0x08 = .crcPoly ∧ regAt 0x0C = .crcInit ∧
    regAt 0x10 = .crcXorout ∧ regAt 0x14 = .crcCtrl ∧ regAt 0x18 = .crcAcc ∧ regAt 0x1C = .crcOut ∧
    regAt 0x20 = .valueLo ∧ regAt 0x24 = .valueHi ∧ regAt 0x28 = .keyLo ∧ regAt 0x2C = .keyHi ∧
    regAt 0x30 = .ilen ∧ regAt 0x34 = .olen) ∧
  (∀ k : Fin 4, regAt (0x40 + 4 * k.val) = .ibuf k ∧ regAt (0x50 + 4 * k.val) = .obuf k) ∧
  (∀ offset, (offset = 0x38 ∨ offset = 0x3C ∨ 0x60 ≤ offset) → regAt offset = .reserved offset) ∧
  (∀ b : Block,
    (readReg b .cmd).toNat = 0 ∧
    (readReg b .status).toNat = b.err.toNat ∧
    (readReg b .crcPoly).toNat = b.crcPoly.toNat ∧
    (readReg b .crcInit).toNat = b.crcInit.toNat ∧
    (readReg b .crcXorout).toNat = b.crcXorout.toNat ∧
    (readReg b .crcCtrl).toNat = b.refin.toNat + 2 * b.refout.toNat ∧
    (readReg b .crcAcc).toNat = b.crcAcc.toNat ∧
    (readReg b .valueLo).toNat = b.value.toNat % 2 ^ 32 ∧
    (readReg b .valueHi).toNat = b.value.toNat / 2 ^ 32 ∧
    (readReg b .keyLo).toNat = b.key.toNat % 2 ^ 32 ∧
    (readReg b .keyHi).toNat = b.key.toNat / 2 ^ 32 ∧
    (readReg b .ilen).toNat = b.ilen.toNat ∧
    (readReg b .olen).toNat = b.olen.toNat ∧
    (readReg b .crcOut).toNat = (crc8Finalize b.crcAcc b.refout b.crcXorout).toNat ∧
    (∀ (k : Fin 4) (j : Fin 4),
      (readReg b (.ibuf k)).extractLsb' (8 * j.val) 8 = b.ibuf[4 * k.val + j.val] ∧
      (readReg b (.obuf k)).extractLsb' (8 * j.val) 8 = b.obuf[4 * k.val + j.val]) ∧
    (∀ offset, readReg b (.reserved offset) = 0))

/-- R54: writes to read-only registers and reserved offsets change nothing, reserved offsets read 0, a read/write register
reads back the field bits last written and 0 elsewhere, and no write to a register other than CMD changes STATUS.ERR. -/
def Obligations.WritesStoreFieldsAndReservedBitsReadZero : Prop :=
  ∀ (b : Block) (d : Word),
    (∀ k : Fin 4, writeReg b .status d = b ∧ writeReg b .crcOut d = b ∧ writeReg b .olen d = b ∧
      writeReg b (.obuf k) d = b) ∧
    (∀ offset, writeReg b (.reserved offset) d = b ∧ readReg b (.reserved offset) = 0) ∧
    readReg (writeReg b .crcPoly d) .crcPoly = d &&& 0xFF ∧
    readReg (writeReg b .crcInit d) .crcInit = d &&& 0xFF ∧
    readReg (writeReg b .crcXorout d) .crcXorout = d &&& 0xFF ∧
    readReg (writeReg b .crcCtrl d) .crcCtrl = d &&& 0x3 ∧
    readReg (writeReg b .crcAcc d) .crcAcc = d &&& 0xFF ∧
    readReg (writeReg b .valueLo d) .valueLo = d ∧
    readReg (writeReg b .valueHi d) .valueHi = d ∧
    readReg (writeReg b .keyLo d) .keyLo = d ∧
    readReg (writeReg b .keyHi d) .keyHi = d ∧
    readReg (writeReg b .ilen d) .ilen = d &&& 0x1F ∧
    (∀ k : Fin 4, readReg (writeReg b (.ibuf k) d) (.ibuf k) = d) ∧
    (∀ r, r ≠ .cmd → (writeReg b r d).err = b.err)

/-- R55, R57, R34: a write to a register other than CMD changes what no other register shows, but for the CRC_OUT view, which
is computed from three of them. (A write to CMD performs a command, R36.) In particular one half of VALUE or KEY leaves the other, and CRC_INIT leaves CRC_ACC (R25). -/
def Obligations.WriteLeavesEveryOtherRegister : Prop :=
  ∀ (b : Block) (r r' : Reg) (d : Word), r ≠ .cmd → r ≠ r' → r' ≠ .crcOut →
    readReg (writeReg b r d) r' = readReg b r'

/-- R56: the bytes of a buffer word, read and written, with the rule's example. -/
def Obligations.BufferWordsAreLittleEndian : Prop :=
  ∀ (b : Block) (k : Fin 4) (d : Word),
    ((readReg b (.ibuf k)).toNat =
      b.ibuf[4 * k.val].toNat + b.ibuf[4 * k.val + 1].toNat * 2 ^ 8 + b.ibuf[4 * k.val + 2].toNat * 2 ^ 16 +
        b.ibuf[4 * k.val + 3].toNat * 2 ^ 24) ∧
    ((readReg b (.obuf k)).toNat =
      b.obuf[4 * k.val].toNat + b.obuf[4 * k.val + 1].toNat * 2 ^ 8 + b.obuf[4 * k.val + 2].toNat * 2 ^ 16 +
        b.obuf[4 * k.val + 3].toNat * 2 ^ 24) ∧
    (∀ j : Fin 4, (writeReg b (.ibuf k) d).ibuf[4 * k.val + j.val] = d.extractLsb' (8 * j.val) 8) ∧
    (∀ i : Fin 16, i.val / 4 ≠ k.val → (writeReg b (.ibuf k) d).ibuf[i] = b.ibuf[i]) ∧
    (b.ibuf = #v[0x31, 0x32, 0x33, 0x34, 0x35, 0x36, 0x37, 0x38, 0x39, 0, 0, 0, 0, 0, 0, 0] →
      readReg b (.ibuf 0) = 0x34333231 ∧ readReg b (.ibuf 1) = 0x38373635 ∧ readReg b (.ibuf 2) = 0x00000039)

/-- R29, R123: a read of CRC_OUT gives the finalised accumulator in bits [7:0] and changes nothing; a write to it is ignored.
Finalising reverses the state where REFOUT is 1, then XORs it with CRC_XOROUT. -/
def Obligations.CrcOutReadsTheFinalisedAccumulator : Prop :=
  (∀ (s : State) (d : Word), s.resetHeld = false →
    transact 0x1C { addr := s.coreBase + 0x1C, widthBits := 32, access := .read } s =
      .next (s, .readData ((crc8Finalize s.block.crcAcc s.block.refout s.block.crcXorout).setWidth 32)) ∧
    transact 0x1C { addr := s.coreBase + 0x1C, widthBits := 32, access := .write d } s = .next (s, .writeDone)) ∧
  (∀ acc xorout : Byte, crc8Finalize acc false xorout = acc ^^^ xorout) ∧
  (∀ (acc xorout : Byte) (i : Nat), i < 8 →
    (crc8Finalize acc true xorout).getLsbD i = (acc.getLsbD (7 - i)).xor (xorout.getLsbD i))

/-- R52: nothing in the block depends on CORE_BASE: a machine whose window and transactions are all moved takes the same step,
moved; and a transaction outside the window does nothing to the block and gets no answer from it (log 13). -/
def Obligations.CoreBaseOnlyMovesTheWindow : Prop :=
  (∀ (n : Nat) (s : State), step (moveBase n s) = mapNext (moveBase n) (step s)) ∧
  (∀ (s : State) (t : Transaction) (rest : List BusEvent), s.pending = .transaction t :: rest →
    inWindow s.coreBase (.transaction t) = false → step s = .next { s with pending := rest })

/-- R60, R61, R55: a host that only reads does not disturb another: for every interleaving of the two hosts' events, the block
ends as if the other host had run alone. The order the bus chooses is the order of the list (log 1). -/
def Obligations.InterleavedReaderDoesNotDisturb : Prop :=
  ∀ (p q l : List BusEvent) (s u v : State),
    Interleaving p q l → (∀ e ∈ q, IsRead e) →
    runEvents l s = .next u → runEvents p s = .next v →
    u.block = v.block ∧ u.resetHeld = v.resetHeld ∧ u.coreBase = v.coreBase

/-! ## 00_scope.md, 60_exceptions.md, 70_reset_and_hazards.md: runs -/

/-- R8, R180, R185: every command completes, whatever the state: an error is a status code and never stops the block. The frame
around the block is left alone, and so every step completes. That a step completes after a refused transaction, and with
nothing pending, is the model's reading (logs 2 and 6). -/
def Obligations.EveryCommandAndStepCompletes : Prop :=
  (∀ (i : Instr) (s : State), ∃ b : Block, exec i s = .next { s with block := b }) ∧
  (∀ s : State, ∃ t, step s = .next t)

/-- R59, R211: a run of as many steps as events are pending ends with nothing pending, each transaction of the block answered
once, and a state that no further step changes. The pending events, the answers and the idle step are the model's own (logs 1,
10 and 6), and so is that the run goes on past a refused transaction, which is answered with its bus error (log 2). -/
def Obligations.RunEndsWithEveryTransactionAnswered : Prop :=
  ∀ s : State, ∃ t : State, Host.Core.run core s.pending.length s = .next t ∧
    t.pending = [] ∧ step t = .next t ∧
    t.responses.length = s.responses.length + (s.pending.filter (inWindow s.coreBase)).length

/-- Every step keeps the machine's invariant: ERR is 0 to 5 (R39), OLEN at most 16 (R33), OBUF zero from OLEN on (R207) and below
it a base-36 text (R100, R101, with what R104, R153 and R158, R154 and R159 put there), CORE_BASE aligned (R52), and while reset
is held the block at its reset values (R200). That reset is held over steps is the model's reading (log 4). -/
def Obligations.StepKeepsTheInvariant : Prop :=
  ∀ s t : State, Inv s → step s = .next t → Inv t

/-- R40: the reset state meets the invariant, for every CORE_BASE that R52 allows. That reset is not held in it is the model's
choice (log 4). -/
def Obligations.ResetMeetsTheInvariant : Prop :=
  ∀ base : Nat, base % 128 = 0 → Inv { State.reset with coreBase := base }

/-- R23, D31: STATUS.ERR changes only by a command or by reset. -/
def Obligations.OnlyCommandsAndResetChangeTheErrorCode : Prop :=
  ∀ s t : State, step s = .next t → t.block.err ≠ s.block.err →
    ∃ e rest, s.pending = e :: rest ∧ (e = .resetAssert ∨ ∃ w, IsWriteAt s e 0x00 w)

/-- R22, R24 to R27, R32, R34: the configuration, ILEN and IBUF change only by a host's write to their own register or by
reset: no command writes them. -/
def Obligations.OnlyHostsChangeConfigurationAndInput : Prop :=
  ∀ s t : State, step s = .next t →
    (∀ rest, s.pending ≠ .resetAssert :: rest) →
    (t.block.crcPoly ≠ s.block.crcPoly → ∃ e rest d, s.pending = e :: rest ∧ IsWriteAt s e 0x08 d) ∧
    (t.block.crcInit ≠ s.block.crcInit → ∃ e rest d, s.pending = e :: rest ∧ IsWriteAt s e 0x0C d) ∧
    (t.block.crcXorout ≠ s.block.crcXorout → ∃ e rest d, s.pending = e :: rest ∧ IsWriteAt s e 0x10 d) ∧
    ((t.block.refin, t.block.refout) ≠ (s.block.refin, s.block.refout) →
      ∃ e rest d, s.pending = e :: rest ∧ IsWriteAt s e 0x14 d) ∧
    (t.block.ilen ≠ s.block.ilen → ∃ e rest d, s.pending = e :: rest ∧ IsWriteAt s e 0x30 d) ∧
    (∀ i : Fin 16, t.block.ibuf[i] ≠ s.block.ibuf[i] →
      ∃ e rest d, s.pending = e :: rest ∧ IsWriteAt s e (0x40 + 4 * (i.val / 4)) d)

/-! ## The command frame: 10_state.md R41, 44_system.md R172, 60_exceptions.md R180 and R181 -/

/-- R181: a command that fails writes STATUS.ERR and nothing else. -/
def Obligations.FailedCommandWritesOnlyTheErrorCode : Prop :=
  ∀ (i : Instr) (s t : State), exec i s = .next t → t.block.err ≠ 0 →
    t = { s with block := { s.block with err := t.block.err } }

/-- R41, the write sets: a command writes nothing outside its row of the table. -/
def Obligations.CommandsWriteOnlyTheirOwnRegisters : Prop :=
  ∀ (i : Instr) (s t : State), exec i s = .next t →
    (t.pending = s.pending ∧ t.responses = s.responses ∧ t.resetHeld = s.resetHeld ∧ t.coreBase = s.coreBase) ∧
    (t.block.crcPoly = s.block.crcPoly ∧ t.block.crcInit = s.block.crcInit ∧
      t.block.crcXorout = s.block.crcXorout ∧ t.block.refin = s.block.refin ∧
      t.block.refout = s.block.refout ∧ t.block.ilen = s.block.ilen ∧ t.block.ibuf = s.block.ibuf) ∧
    (t.block.crcAcc ≠ s.block.crcAcc → i = .crcReset ∨ (∃ c, i = .crcByte c) ∨ i = .crcBuf) ∧
    (t.block.value ≠ s.block.value → i = .b36Dec ∨ i = .snMask) ∧
    (t.block.key ≠ s.block.key → i = .hkey) ∧
    ((t.block.obuf, t.block.olen) ≠ (s.block.obuf, s.block.olen) →
      (∃ n, i = .b36Enc n) ∨ i = .snEnc ∨ i = .snDec)

/-- R180, R182: the codes each command can leave, of which code 5 is never one; and for the five commands that read IBUF each
code of the command's row is reached in some state. -/
def Obligations.EachCommandReportsOnlyItsOwnCodes : Prop :=
  (∀ (i : Instr) (s t : State), exec i s = .next t → t.block.err ∈ tableCodes i) ∧
  (∀ i : Instr, i = .b36Dec ∨ i = .crcBuf ∨ i = .hkey ∨ i = .snEnc ∨ i = .snDec →
    ∀ c ∈ tableCodes i, ∃ s t : State, exec i s = .next t ∧ t.block.err = c)

/-- R203, R41: the bytes of IBUF at index ILEN and above are never read: a command on a machine with others there does the
same. -/
def Obligations.InputBeyondIlenIsNeverRead : Prop :=
  ∀ (i : Instr) (s : State) (buf : Vector Byte 16),
    (∀ j : Fin 16, j.val < s.block.ilen.toNat → buf[j] = s.block.ibuf[j]) →
    exec i { s with block := { s.block with ibuf := buf } } =
      mapNext (fun t => { t with block := { t.block with ibuf := buf } }) (exec i s)

/-- R33, R207: `set_obuf`. -/
def Obligations.SetObufZeroFillsTheBuffer : Prop :=
  ∀ (b : Block) (t : List Byte), t.length ≤ 16 →
    (∀ i : Fin 16, (setObuf b t).obuf[i] = if h : i.val < t.length then t[i.val] else 0x00) ∧
    (setObuf b t).olen.toNat = t.length ∧
    setObuf b t = { b with obuf := (setObuf b t).obuf, olen := (setObuf b t).olen }

/-- R170: NOP clears STATUS.ERR and changes nothing else; no other word with OPC 0x00 is legal. -/
def Obligations.NopOnlyClearsTheErrorCode : Prop :=
  encode .nop = 0x00000000 ∧
  (∀ s : State, exec .nop s = .next { s with block := { s.block with err := 0 } }) ∧
  (∀ w : Word, w.toNat % 256 = 0x00 → w ≠ 0 → ∃ e, decode w = .error e)

/-! ## 40_base36.md -/

/-- R100: the alphabet, `digit` and `index`. -/
def Obligations.AlphabetIsDigitsThenUpperCase : Prop :=
  alphabet.length = 36 ∧ alphabet = (List.range 36).map b36Digit ∧
  (∀ i, i < 36 → b36Index (b36Digit i) = some i) ∧
  (∀ c : Byte, (c ∈ alphabet → b36Index c = some (alphabet.idxOf c)) ∧ (c ∉ alphabet → b36Index c = none)) ∧
  (∀ c : Byte, c ∈ alphabet ↔ (0x30 ≤ c.toNat ∧ c.toNat ≤ 0x39) ∨ (0x41 ≤ c.toNat ∧ c.toNat ≤ 0x5A))

/-- R101: the text of `v` with at least `md` digits is the one text that spells `v`, has `md` bytes or more, and has no leading
zero where it has more; its length is `max(nd(v), md)`. -/
def Obligations.EncodedTextIsTheShortestPaddedSpelling : Prop :=
  ∀ v md : Nat,
    IsText (b36Encode v md) ∧ textValue (b36Encode v md) = v ∧
    (∀ k, (b36Encode v md).length ≤ k ↔ md ≤ k ∧ v < 36 ^ k) ∧
    (∀ t : List Byte, IsText t → textValue t = v → md ≤ t.length →
      (md < t.length → t.head? ≠ some 0x30) → t = b36Encode v md)

/-- R103: the symmetry law, for every `md`, and the rule's example that the converse fails. -/
def Obligations.DecodingUndoesEncoding : Prop :=
  (∀ v md : Nat, b36Decode (b36Encode v md) = .ok v) ∧
  b36Encode 0 3 = [0x30, 0x30, 0x30] ∧
  (∃ v, b36Decode [0x30, 0x30, 0x37] = .ok v ∧ b36Encode v 0 = [0x37])

/-- R104: B36_ENC writes the text of VALUE when `min_digits` is 16 or less, and reports RangeError exactly when it is more; its
word, and the texts of the rule's corner cases and example. -/
def Obligations.B36EncWritesTheTextOfValue : Prop :=
  (∀ md, md < 256 → (encode (.b36Enc md)).toNat = 0x10 + 256 * md) ∧
  b36Encode 0 0 = [] ∧ b36Encode 0 16 = List.replicate 16 0x30 ∧ b36Encode 35 1 = [0x5A] ∧
  b36Encode (2 ^ 64 - 1) 0 = [0x33, 0x57, 0x35, 0x45, 0x31, 0x31, 0x32, 0x36, 0x34, 0x53, 0x47, 0x53, 0x46] ∧
  ∀ (s : State) (md : Nat),
    (md ≤ 16 → (b36Encode s.block.value.toNat md).length ≤ 16 ∧
      exec (.b36Enc md) s =
        .next { s with block := { setObuf s.block (b36Encode s.block.value.toNat md) with err := 0 } }) ∧
    (16 < md → exec (.b36Enc md) s = .next { s with block := { s.block with err := 4 } })

/-- R105: B36_DEC, its three errors in their order, and its result; the values of the rule's corner cases and example. -/
def Obligations.B36DecLoadsValueOrReportsTheFirstError : Prop :=
  encode .b36Dec = 0x00000011 ∧
  textValue [] = 0 ∧ textValue (List.replicate 12 0x5A) = 0x41C21CB8E0FFFFFF ∧
  textValue [0x33, 0x57, 0x35, 0x45, 0x31, 0x31, 0x32, 0x36, 0x34, 0x53, 0x47, 0x53, 0x46] = 2 ^ 64 - 1 ∧
  textValue [0x33, 0x57, 0x35, 0x45, 0x31, 0x31, 0x32, 0x36, 0x34, 0x53, 0x47, 0x53, 0x47] = 2 ^ 64 ∧
  textValue [0x30, 0x30, 0x44, 0x33, 0x30, 0x47, 0x52, 0x39, 0x4A, 0x31] = 1025292626173 ∧
  ∀ s : State,
    (16 < s.block.ilen.toNat → exec .b36Dec s = .next { s with block := { s.block with err := 4 } }) ∧
    (s.block.ilen.toNat ≤ 16 → ¬ IsText (s.block.ibuf.toList.take s.block.ilen.toNat) →
      exec .b36Dec s = .next { s with block := { s.block with err := 2 } }) ∧
    (s.block.ilen.toNat ≤ 16 → IsText (s.block.ibuf.toList.take s.block.ilen.toNat) →
      2 ^ 64 ≤ textValue (s.block.ibuf.toList.take s.block.ilen.toNat) →
      exec .b36Dec s = .next { s with block := { s.block with err := 4 } }) ∧
    (∀ v : DWord, s.block.ilen.toNat ≤ 16 → IsText (s.block.ibuf.toList.take s.block.ilen.toNat) →
      textValue (s.block.ibuf.toList.take s.block.ilen.toNat) = v.toNat →
      exec .b36Dec s = .next { s with block := { s.block with value := v, err := 0 } })

/-! ## 41_crc8.md -/

/-- R121: `rev8` reverses the bits of a byte. -/
def Obligations.Rev8ReversesTheBits : Prop :=
  (∀ (b : Byte) (i : Nat), i < 8 → (rev8 b).getLsbD i = b.getLsbD (7 - i)) ∧
  (∀ b : Byte, rev8 (rev8 b) = b) ∧ rev8 0x01 = 0x80 ∧ rev8 0x31 = 0x8C

/-- R122: masking to 8 bits once per byte, as the source does, gives the same as masking after every shift. -/
def Obligations.MaskingOncePerByteGivesTheSameCrc : Prop :=
  ∀ (s b poly : Byte) (refin : Bool),
    (crc8Update s b poly refin).toNat =
      crcNatLoop poly.toNat 8 (s.toNat ^^^ (if refin then rev8 b else b).toNat) % 256

/-- R124: the CRC of a byte string, its check value, the state after each byte of the check string, and the empty string. -/
def Obligations.CrcCheckValues : Prop :=
  (∀ (p : CrcParams) (t : List Byte),
    crc8 p t = crc8Finalize (crc8UpdateAll p.init t p.poly p.refin) p.refout p.xorout) ∧
  (∀ t : List Byte, crc8Cdma2000 t = crc8 { poly := 0x9B, init := 0xFF, refin := false, refout := false, xorout := 0x00 } t) ∧
  crc8Cdma2000 [0x31, 0x32, 0x33, 0x34, 0x35, 0x36, 0x37, 0x38, 0x39] = 0xDA ∧
  (List.range 9).map (fun n =>
      crc8UpdateAll 0xFF ([0x31, 0x32, 0x33, 0x34, 0x35, 0x36, 0x37, 0x38, 0x39].take (n + 1)) 0x9B false) =
    [0xB6, 0xCA, 0x17, 0x52, 0x5B, 0xEF, 0xE8, 0xF1, 0xDA] ∧
  crc8Cdma2000 [] = 0xFF

/-- R125: CRC_RESET loads CRC_ACC from CRC_INIT and changes nothing else but STATUS.ERR. -/
def Obligations.CrcResetLoadsTheInitialValue : Prop :=
  encode .crcReset = 0x00000020 ∧
  ∀ s : State, exec .crcReset s =
    .next { s with block := { s.block with crcAcc := s.block.crcInit, err := 0 } }

/-- R126: CRC_BYTE processes its byte into CRC_ACC with CRC_POLY and REFIN, and the rule's corner cases. -/
def Obligations.CrcByteProcessesOneByte : Prop :=
  (∀ (s : State) (b : Byte), exec (.crcByte b) s =
    .next { s with block := { s.block with
      crcAcc := crc8Update s.block.crcAcc b s.block.crcPoly s.block.refin, err := 0 } }) ∧
  (∀ (b : Byte), (encode (.crcByte b)).toNat = 0x21 + 256 * b.toNat) ∧
  (∀ (s b : Byte) (refin : Bool), crc8Update s b 0x00 refin = 0x00) ∧
  (∀ (poly : Byte) (refin : Bool), crc8Update 0x00 0x00 poly refin = 0x00) ∧
  crc8Update 0xFF 0xFF 0x9B false = 0x00 ∧ crc8Update 0xFF 0x00 0x9B false = 0x7B ∧
  crc8Update 0xFF 0x31 0x9B false = 0xB6

/-- R127: CRC_BUF processes the bytes of IBUF in order, or reports RangeError and leaves CRC_ACC. -/
def Obligations.CrcBufProcessesTheInputBytes : Prop :=
  encode .crcBuf = 0x00000022 ∧
  ∀ s : State,
    (16 < s.block.ilen.toNat → exec .crcBuf s = .next { s with block := { s.block with err := 4 } }) ∧
    (s.block.ilen.toNat ≤ 16 → exec .crcBuf s =
      .next { s with block := { s.block with
        crcAcc := (s.block.ibuf.toList.take s.block.ilen.toNat).foldl
          (fun acc c => crc8Update acc c s.block.crcPoly s.block.refin) s.block.crcAcc
        err := 0 } })

/-- R128: the accumulation law, and what it means for commands: one CRC_BYTE for each input byte, in order, does what CRC_BUF
does. -/
def Obligations.CrcAccumulatesOverAnySplit : Prop :=
  (∀ (s poly : Byte) (t u : List Byte) (refin : Bool),
    crc8UpdateAll s (t ++ u) poly refin = crc8UpdateAll (crc8UpdateAll s t poly refin) u poly refin) ∧
  (∀ (s : State), s.block.ilen.toNat ≤ 16 → s.block.err = 0 →
    feedBytes (s.block.ibuf.toList.take s.block.ilen.toNat) s = exec .crcBuf s)

/-- R130: with REFIN = REFOUT = 1 the engine gives the usual right-shifting reflected CRC, with the polynomial and the state
reflected. -/
def Obligations.ReflectedEngineIsTheRightShiftingCrc : Prop :=
  ∀ (s poly xorout : Byte) (t : List Byte),
    crc8Finalize (crc8UpdateAll s t poly true) true xorout =
      t.foldl (fun acc b => crcRightShifts (rev8 poly) 8 (acc ^^^ b)) (rev8 s) ^^^ xorout

/-! ## 42_hashkey.md -/

/-- R141: the key is the first 8 bytes of the digest, big-endian; the digest has 32 bytes (R140). -/
def Obligations.HashKeyIsTheBigEndianDigestPrefix : Prop :=
  ∀ t : List Byte, (sha256 t).length = 32 ∧
    (hashKey t).toNat = ((sha256 t).take 8).foldl (fun n c => n * 256 + c.toNat) 0

/-- R142, R143, 95_test_vectors.md section 2.3: published and tabulated keys. The algorithm of SHA-256 is the model's, from
FIPS 180-4 (log 5). -/
def Obligations.HashKeyMatchesPublishedKeys : Prop :=
  hashKey [] = 0xE3B0C44298FC1C14 ∧ hashKey [0x61, 0x62, 0x63] = 0xBA7816BF8F01CFEA ∧
  hashKey [0x00] = 0x6E340B9CFFB37A98 ∧ hashKey [0xFF] = 0xA8100AE6AA1940D0

/-- R143: HKEY loads KEY from the hash of the input bytes, or reports RangeError and leaves KEY; the keys of the rule's corner
case and example. -/
def Obligations.HkeyLoadsTheKeyOfTheInput : Prop :=
  encode .hkey = 0x00000030 ∧
  hashKey [] = 0xE3B0C44298FC1C14 ∧ hashKey [0x33] = 0x4E07408562BEDB8B ∧
  ∀ s : State,
    (16 < s.block.ilen.toNat → exec .hkey s = .next { s with block := { s.block with err := 4 } }) ∧
    (s.block.ilen.toNat ≤ 16 → exec .hkey s =
      .next { s with block := { s.block with
        key := hashKey (s.block.ibuf.toList.take s.block.ilen.toNat), err := 0 } })

/-! ## 43_serial.md -/

/-- R150: the mask changes bits [49:0] alone, does not use key bits [63:50], and is its own inverse. -/
def Obligations.MaskIsAFiftyBitInvolution : Prop :=
  ∀ (x : Nat) (key : DWord),
    (∀ i, (mask50 x key).testBit i = if i < 50 then (x.testBit i).xor (key.getLsbD i) else x.testBit i) ∧
    mask50 (mask50 x key) key = x

/-- R157: SN_MASK, and that two of them restore VALUE; the value of the rule's example. -/
def Obligations.SnMaskMasksValueWithTheKey : Prop :=
  encode .snMask = 0x00000040 ∧
  mask50 1025292626173 0x4E07408562BEDB8B = 0x0003406BDA8D3376 ∧
  ∀ s : State, ∃ v : DWord, v.toNat = mask50 s.block.value.toNat s.block.key ∧
    (∀ i, i < 64 → v.getLsbD i =
      if i < 50 then (s.block.value.getLsbD i).xor (s.block.key.getLsbD i) else s.block.value.getLsbD i) ∧
    exec .snMask s = .next { s with block := { s.block with value := v, err := 0 } } ∧
    exec .snMask { s with block := { s.block with value := v, err := 0 } } =
      .next { s with block := { s.block with err := 0 } }

/-- R153, R158: SN_ENC, its errors in their order, and its result. -/
def Obligations.SnEncEncodesOrReportsTheFirstError : Prop :=
  encode .snEnc = 0x00000041 ∧
  ∀ s : State,
    (s.block.ilen ≠ 12 → exec .snEnc s = .next { s with block := { s.block with err := 1 } }) ∧
    ∀ p : List Byte, p = s.block.ibuf.toList.take 12 → s.block.ilen = 12 →
      (p.take 2 ≠ [0x52, 0x42] → exec .snEnc s = .next { s with block := { s.block with err := 1 } }) ∧
      (p.take 2 = [0x52, 0x42] → ¬ IsText (p.drop 2) →
        exec .snEnc s = .next { s with block := { s.block with err := 2 } }) ∧
      (∀ masked : Nat, p.take 2 = [0x52, 0x42] → IsText (p.drop 2) →
        masked = mask50 (textValue (p.drop 2)) (hashKey [crc8Cdma2000 p]) →
        (36 ^ 10 ≤ masked → exec .snEnc s = .next { s with block := { s.block with err := 1 } }) ∧
        (masked < 36 ^ 10 →
          ([0x52, 0x42] ++ b36Encode masked 10 ++ b36Encode (crc8Cdma2000 p).toNat 2).length = 14 ∧
          exec .snEnc s = .next { s with block := {
            setObuf s.block ([0x52, 0x42] ++ b36Encode masked 10 ++ b36Encode (crc8Cdma2000 p).toNat 2) with
            err := 0 } }))

/-- R154, R159: SN_DEC, its errors in their order, and its result. -/
def Obligations.SnDecVerifiesOrReportsTheFirstError : Prop :=
  encode .snDec = 0x00000042 ∧
  ∀ s : State,
    (s.block.ilen ≠ 14 → exec .snDec s = .next { s with block := { s.block with err := 1 } }) ∧
    ∀ e : List Byte, e = s.block.ibuf.toList.take 14 → s.block.ilen = 14 →
      (e.take 2 ≠ [0x52, 0x42] → exec .snDec s = .next { s with block := { s.block with err := 1 } }) ∧
      (e.take 2 = [0x52, 0x42] → ¬ IsText (e.drop 12) →
        exec .snDec s = .next { s with block := { s.block with err := 2 } }) ∧
      (e.take 2 = [0x52, 0x42] → IsText (e.drop 12) → 255 < textValue (e.drop 12) →
        exec .snDec s = .next { s with block := { s.block with err := 3 } }) ∧
      (e.take 2 = [0x52, 0x42] → IsText (e.drop 12) → textValue (e.drop 12) ≤ 255 →
        ¬ IsText ((e.drop 2).take 10) →
        exec .snDec s = .next { s with block := { s.block with err := 2 } }) ∧
      (∀ (c : Byte) (cand : List Byte), e.take 2 = [0x52, 0x42] → IsText (e.drop 12) →
        textValue (e.drop 12) = c.toNat → IsText ((e.drop 2).take 10) →
        cand = [0x52, 0x42] ++ b36Encode (mask50 (textValue ((e.drop 2).take 10)) (hashKey [c])) 10 →
        (crc8Cdma2000 cand ≠ c → exec .snDec s = .next { s with block := { s.block with err := 3 } }) ∧
        (crc8Cdma2000 cand = c → cand.length ≠ 12 →
          exec .snDec s = .next { s with block := { s.block with err := 1 } }) ∧
        (crc8Cdma2000 cand = c → cand.length = 12 →
          exec .snDec s = .next { s with block := { setObuf s.block cand with err := 0 } }))

/-- R155: the round trip of every accepted plain identifier, with the source's vector and the identifier that encode
rejects. -/
def Obligations.DecodingRestoresEveryEncodedIdentifier : Prop :=
  (∀ p e : List Byte, p.length = 12 → snEncode p = .ok e → snDecode e = .ok p) ∧
  snEncode [0x52, 0x42, 0x30, 0x30, 0x44, 0x33, 0x30, 0x47, 0x52, 0x39, 0x4A, 0x31] =
    .ok [0x52, 0x42, 0x39, 0x30, 0x46, 0x4A, 0x37, 0x53, 0x49, 0x48, 0x59, 0x55, 0x31, 0x46] ∧
  snDecode [0x52, 0x42, 0x39, 0x30, 0x46, 0x4A, 0x37, 0x53, 0x49, 0x48, 0x59, 0x55, 0x31, 0x46] =
    .ok [0x52, 0x42, 0x30, 0x30, 0x44, 0x33, 0x30, 0x47, 0x52, 0x39, 0x4A, 0x31] ∧
  snEncode [0x52, 0x42, 0x5A, 0x5A, 0x5A, 0x5A, 0x5A, 0x5A, 0x5A, 0x5A, 0x5A, 0x5A] = .error .format

/-- R154, R161: decode accepts nothing but what encode makes: an identifier that SN_DEC accepts is the encoding of the plain
identifier it gives. -/
def Obligations.DecodingAcceptsOnlyEncodedIdentifiers : Prop :=
  ∀ e p : List Byte, snDecode e = .ok p → p.length = 12 ∧ e.length = 14 ∧ snEncode p = .ok e

/-- R155, R158, R159, R33: on the machine: a successful SN_ENC, its output moved to the input, and SN_DEC give back the input
bytes, with no error. -/
def Obligations.EncodedOutputDecodesToTheInput : Prop :=
  ∀ s t : State, exec .snEnc s = .next t → t.block.err = 0 →
    ∃ u : State,
      exec .snDec { t with block := { t.block with ibuf := t.block.obuf, ilen := t.block.olen } } = .next u ∧
      u.block.err = 0 ∧ u.block.olen = 12 ∧ u.block.obuf.toList.take 12 = s.block.ibuf.toList.take 12

/-- R160: the range facts. A masked value is below 2^52, and needs 11 digits only when the device number is 3 * 2^50
("X9ALTVZ9XC") or more; "B33J9YNRB3" is 2^50 - 1. -/
def Obligations.OnlyDeviceNumbersFromX9ALTVZ9XCCanOverflow : Prop :=
  (∀ (t : List Byte) (key : DWord), IsText t → t.length = 10 →
    textValue t ≤ 3656158440062975 ∧ mask50 (textValue t) key < 2 ^ 52 ∧
    (36 ^ 10 ≤ mask50 (textValue t) key → 3 * 2 ^ 50 ≤ textValue t)) ∧
  textValue [0x58, 0x39, 0x41, 0x4C, 0x54, 0x56, 0x5A, 0x39, 0x58, 0x43] = 3 * 2 ^ 50 ∧
  textValue [0x42, 0x33, 0x33, 0x4A, 0x39, 0x59, 0x4E, 0x52, 0x42, 0x33] = 2 ^ 50 - 1

/-- R161: a changed byte outside the alphabet in bytes 2 to 13 of an accepted identifier gives DigitError. -/
def Obligations.NonAlphabetTamperingIsADigitError : Prop :=
  ∀ (e p : List Byte) (i : Nat) (c : Byte), snDecode e = .ok p → 2 ≤ i → i < 14 → c ∉ alphabet →
    snDecode (e.set i c) = .error .digit

/-- R156: SN_ENC and SN_DEC neither read nor write the CRC registers. -/
def Obligations.SerialCommandsIgnoreTheCrcRegisters : Prop :=
  ∀ (i : Instr) (s : State) (poly init xorout acc : Byte) (refin refout : Bool), i = .snEnc ∨ i = .snDec →
    exec i { s with block := { s.block with
        crcPoly := poly, crcInit := init, crcXorout := xorout, crcAcc := acc, refin := refin, refout := refout } } =
      mapNext (fun t => { t with block := { t.block with
        crcPoly := poly, crcInit := init, crcXorout := xorout, crcAcc := acc, refin := refin, refout := refout } })
        (exec i s)

/-! ## 30_encoding.md R77: the pseudo-instructions -/

/-- R77, R56: `ld.ibuf` of 0 to 16 bytes leaves IBUF[0:ILEN] equal to the text, IBUF zero above it, and changes nothing else of
the block. The pseudo-instructions as lists of events, and the answers, are the model's own (logs 12 and 10). -/
def Obligations.LdIbufLoadsTheText : Prop :=
  ∀ (s : State) (t : List Byte), s.resetHeld = false → t.length ≤ 16 →
    ∃ u : State, runEvents (hostLdIbuf s.coreBase t) s = .next u ∧
      u.block = { s.block with ibuf := u.block.ibuf, ilen := u.block.ilen } ∧
      u.block.ilen.toNat = t.length ∧
      u.block.ibuf.toList = t ++ List.replicate (16 - t.length) 0x00 ∧
      u.responses = s.responses ++ List.replicate 5 .writeDone

/-- R77: `ld.value`, `ld.key` and `crc.cfg` load their registers and nothing else; in particular CRC_ACC stays. The
pseudo-instructions as lists of events are the model's own (log 12). -/
def Obligations.LoadPseudoInstructionsLoadTheirRegisters : Prop :=
  ∀ (s : State) (v : DWord) (p : CrcParams), s.resetHeld = false →
    (∃ u : State, runEvents (hostLdValue s.coreBase v) s = .next u ∧ u.block = { s.block with value := v }) ∧
    (∃ u : State, runEvents (hostLdKey s.coreBase v) s = .next u ∧ u.block = { s.block with key := v }) ∧
    (∃ u : State, runEvents (hostCrcCfg s.coreBase p) s = .next u ∧
      u.block = { s.block with
        crcPoly := p.poly, crcInit := p.init, crcXorout := p.xorout, refin := p.refin, refout := p.refout })

/-- R77: `rd.obuf` answers OLEN and the four words of OBUF, and `mv.obuf.ibuf` with the words so read copies the last output
into the input. The pseudo-instructions as lists of events, and the answers, are the model's own (logs 12 and 10). -/
def Obligations.MvObufIbufCopiesTheOutput : Prop :=
  ∀ s : State, s.resetHeld = false →
    ∃ u : State,
      runEvents
        (hostMvObufIbuf s.coreBase (readReg s.block .olen) (readReg s.block (.obuf 0)) (readReg s.block (.obuf 1))
          (readReg s.block (.obuf 2)) (readReg s.block (.obuf 3))) s = .next u ∧
      u.block = { s.block with ibuf := s.block.obuf, ilen := s.block.olen } ∧
      u.responses = s.responses ++
        [.readData (readReg s.block .olen), .readData (readReg s.block (.obuf 0)),
         .readData (readReg s.block (.obuf 1)), .readData (readReg s.block (.obuf 2)),
         .readData (readReg s.block (.obuf 3))] ++ List.replicate 5 .writeDone
end

