-- ==== Sys2Proof/Laws/Base36.lean ====
section
/-! SUPPORT. The base-36 functions (40_base36.md R100 to R102) in the spec's own words: which texts decode, to what number, and
what the digit loop builds. -/

namespace Sys2Proof.Machine

open Sys2Proof.Safety

theorem b36Index_eq_none {c : Byte} : b36Index c = none ↔ c ∉ alphabet := by
  revert c; decide +kernel

theorem b36Index_of_mem {c : Byte} (h : c ∈ alphabet) : b36Index c = some (alphabet.idxOf c) := by
  revert c; decide +kernel

theorem b36Digit_mem {i : Nat} (h : i < 36) : b36Digit i ∈ alphabet := by
  revert i; decide +kernel

theorem idxOf_b36Digit {i : Nat} (h : i < 36) : alphabet.idxOf (b36Digit i) = i := by
  revert i; decide +kernel

theorem b36Digit_idxOf {c : Byte} (h : c ∈ alphabet) : b36Digit (alphabet.idxOf c) = c := by
  revert c; decide +kernel

theorem idxOf_lt {c : Byte} (h : c ∈ alphabet) : alphabet.idxOf c < 36 := by
  revert c; decide +kernel

/-- Decoding a text of alphabet bytes gives the number it spells; `r` is the value so far. -/
theorem b36DecodeFrom_of_text (r : Nat) {t : List Byte} (h : IsText t) :
    b36DecodeFrom r t = .ok (t.foldl (fun r c => r * 36 + alphabet.idxOf c) r) := by
  induction t generalizing r with
  | nil => rfl
  | cons c t ih =>
    have hc : c ∈ alphabet := h c (by simp)
    simp only [b36DecodeFrom, b36Index_of_mem hc, List.foldl_cons]
    exact ih _ fun x hx => h x (by simp [hx])

theorem b36DecodeFrom_of_not_text (r : Nat) {t : List Byte} (h : ¬ IsText t) :
    b36DecodeFrom r t = .error .digit := by
  induction t generalizing r with
  | nil => exact absurd (by simp [IsText]) h
  | cons c t ih =>
    unfold b36DecodeFrom
    by_cases hc : c ∈ alphabet
    · simp only [b36Index_of_mem hc]
      apply ih
      intro ht
      apply h
      intro x hx
      rcases List.mem_cons.mp hx with rfl | hx
      · exact hc
      · exact ht x hx
    · simp [b36Index_eq_none.mpr hc]

theorem b36Decode_of_text {t : List Byte} (h : IsText t) : b36Decode t = .ok (textValue t) :=
  b36DecodeFrom_of_text 0 h

theorem b36Decode_of_not_text {t : List Byte} (h : ¬ IsText t) : b36Decode t = .error .digit :=
  b36DecodeFrom_of_not_text 0 h

theorem foldl_shift (t : List Byte) (r : Nat) :
    t.foldl (fun r c => r * 36 + alphabet.idxOf c) r = r * 36 ^ t.length + textValue t := by
  unfold textValue
  induction t generalizing r with
  | nil => simp
  | cons c t ih =>
    simp only [List.foldl_cons, List.length_cons]
    rw [ih, ih (0 * 36 + _)]
    ring

theorem textValue_append (t u : List Byte) : textValue (t ++ u) = textValue t * 36 ^ u.length + textValue u := by
  conv_lhs => unfold textValue
  rw [List.foldl_append, foldl_shift]; rfl

theorem textValue_cons (c : Byte) (t : List Byte) :
    textValue (c :: t) = alphabet.idxOf c * 36 ^ t.length + textValue t := by
  simpa [textValue] using textValue_append [c] t

theorem textValue_lt {t : List Byte} (h : IsText t) : textValue t < 36 ^ t.length := by
  induction t with
  | nil => simp [textValue]
  | cons c t ih =>
    have hc := idxOf_lt (h c (by simp))
    have ht := ih fun x hx => h x (by simp [hx])
    rw [textValue_cons, List.length_cons, pow_succ]
    nlinarith

theorem textValue_inj {t u : List Byte} (ht : IsText t) (hu : IsText u) (hl : t.length = u.length)
    (hv : textValue t = textValue u) : t = u := by
  induction t generalizing u with
  | nil => simpa using (List.length_eq_zero_iff.mp hl.symm).symm
  | cons c t ih =>
    cases u with
    | nil => simp at hl
    | cons d u =>
      have hl' : t.length = u.length := by simpa using hl
      have ht' : IsText t := fun x hx => ht x (by simp [hx])
      have hu' : IsText u := fun x hx => hu x (by simp [hx])
      have h1 := textValue_lt ht'
      have h2 := textValue_lt hu'
      rw [textValue_cons, textValue_cons, ← hl'] at hv
      rw [← hl'] at h2
      have hd : alphabet.idxOf c = alphabet.idxOf d := by
        have e1 := Nat.div_eq_of_lt h1
        have e2 := Nat.div_eq_of_lt h2
        have := congrArg (· / 36 ^ t.length) hv
        have hp : 0 < 36 ^ t.length := by positivity
        simpa [Nat.add_comm (_ * _), Nat.add_mul_div_right _ _ hp, e1, e2] using this
      have hcd : c = d := by
        rw [← b36Digit_idxOf (ht c (by simp)), hd, b36Digit_idxOf (hu d (by simp))]
      subst hcd
      rw [ih ht' hu' hl' (by omega)]

theorem b36DigitLoop_append (fuel v : Nat) (s : List Byte) :
    b36DigitLoop fuel v s = b36DigitLoop fuel v [] ++ s := by
  induction fuel generalizing v s with
  | zero => simp [b36DigitLoop]
  | succ n ih =>
    unfold b36DigitLoop
    split
    · simp
    · rw [ih, ih (v / 36) [_]]; simp

/-- Everything the digit loop gives, for enough fuel: alphabet bytes that spell `v`, no longer than need be. -/
theorem b36DigitLoop_spec (fuel v : Nat) (h : v < 2 ^ fuel) :
    IsText (b36DigitLoop fuel v []) ∧ textValue (b36DigitLoop fuel v []) = v ∧
    (∀ k, (b36DigitLoop fuel v []).length ≤ k ↔ v < 36 ^ k) ∧
    (b36DigitLoop fuel v []).head? ≠ some 0x30 := by
  induction fuel generalizing v with
  | zero =>
    obtain rfl : v = 0 := by simpa using h
    simp [b36DigitLoop, IsText, textValue]
  | succ n ih =>
    unfold b36DigitLoop
    by_cases hv : v = 0
    · simp [hv, IsText, textValue]
    · have hv' : v / 36 < 2 ^ n := by rw [pow_succ] at h; omega
      obtain ⟨h1, h2, h3, h4⟩ := ih (v / 36) hv'
      have hm : v % 36 < 36 := Nat.mod_lt _ (by norm_num)
      simp only [hv, if_false]
      rw [b36DigitLoop_append]
      refine ⟨?_, ?_, ?_, ?_⟩
      · intro c hc
        rcases List.mem_append.mp hc with hc | hc
        · exact h1 c hc
        · rw [List.mem_singleton.mp hc]; exact b36Digit_mem hm
      · rw [textValue_append, h2]
        simp only [List.length_singleton, pow_one, textValue, List.foldl_cons, List.foldl_nil, idxOf_b36Digit hm]
        omega
      · intro k
        cases k with
        | zero => simp; omega
        | succ k =>
          rw [List.length_append, List.length_singleton, Nat.add_le_add_iff_right, h3, pow_succ]
          omega
      · rw [List.head?_append]
        cases hh : (b36DigitLoop n (v / 36) []).head? with
        | some x => simpa [hh] using h4
        | none =>
          have hnil : b36DigitLoop n (v / 36) [] = [] := by simpa using hh
          have : v / 36 = 0 := by rw [← h2, hnil]; rfl
          intro hc
          simp at hc
          have := idxOf_b36Digit hm
          rw [hc] at this
          have e : alphabet.idxOf (48#8) = 0 := by decide
          rw [e] at this
          omega

theorem isText_replicate (n : Nat) : IsText (List.replicate n 0x30) := by
  intro c hc
  rw [(List.mem_replicate.mp hc).2]
  decide

theorem textValue_replicate (n : Nat) : textValue (List.replicate n 0x30) = 0 := by
  induction n with
  | zero => rfl
  | succ n ih => rw [List.replicate_succ, textValue_cons, ih, show alphabet.idxOf (0x30 : Byte) = 0 by decide]; simp

theorem isText_append {t u : List Byte} (ht : IsText t) (hu : IsText u) : IsText (t ++ u) := by
  intro c hc
  rcases List.mem_append.mp hc with h | h
  · exact ht c h
  · exact hu c h

theorem b36Encode_isText (v md : Nat) : IsText (b36Encode v md) :=
  isText_append (isText_replicate _) (b36DigitLoop_spec _ v Nat.lt_log2_self).1

theorem textValue_b36Encode (v md : Nat) : textValue (b36Encode v md) = v := by
  unfold b36Encode
  rw [textValue_append, textValue_replicate, (b36DigitLoop_spec _ v Nat.lt_log2_self).2.1]; simp

theorem b36Encode_length_le (v md k : Nat) : (b36Encode v md).length ≤ k ↔ md ≤ k ∧ v < 36 ^ k := by
  have h := (b36DigitLoop_spec _ v Nat.lt_log2_self).2.2.1 k
  unfold b36Encode
  simp only [List.length_append, List.length_replicate]
  rw [← h]; omega

theorem b36Encode_length_of_lt {v md : Nat} (h : v < 36 ^ md) : (b36Encode v md).length = md := by
  have h1 := (b36Encode_length_le v md md).mpr ⟨le_refl _, h⟩
  have h2 := ((b36Encode_length_le v md _).mp (le_refl _)).1
  omega

theorem b36Encode_textValue {t : List Byte} (h : IsText t) : b36Encode (textValue t) t.length = t :=
  textValue_inj (b36Encode_isText _ _) h (b36Encode_length_of_lt (textValue_lt h)) (textValue_b36Encode _ _)

end Sys2Proof.Machine
end

