-- ==== Sys2Proof/Laws/State.lean ====
section
/-! SUPPORT. What each update of the block and of the machine leaves in every field: one lemma per field, true by rfl, so that
no later proof unfolds a record update. -/

namespace Sys2Proof.Machine

section Block

variable (b : Block) (e : ErrorKind) (t : List Byte)

@[simp] theorem commandOk_err : (commandOk b).err = errNone := rfl
@[simp] theorem commandOk_crcPoly : (commandOk b).crcPoly = b.crcPoly := rfl
@[simp] theorem commandOk_crcInit : (commandOk b).crcInit = b.crcInit := rfl
@[simp] theorem commandOk_crcXorout : (commandOk b).crcXorout = b.crcXorout := rfl
@[simp] theorem commandOk_refin : (commandOk b).refin = b.refin := rfl
@[simp] theorem commandOk_refout : (commandOk b).refout = b.refout := rfl
@[simp] theorem commandOk_crcAcc : (commandOk b).crcAcc = b.crcAcc := rfl
@[simp] theorem commandOk_value : (commandOk b).value = b.value := rfl
@[simp] theorem commandOk_key : (commandOk b).key = b.key := rfl
@[simp] theorem commandOk_ilen : (commandOk b).ilen = b.ilen := rfl
@[simp] theorem commandOk_ibuf : (commandOk b).ibuf = b.ibuf := rfl
@[simp] theorem commandOk_olen : (commandOk b).olen = b.olen := rfl
@[simp] theorem commandOk_obuf : (commandOk b).obuf = b.obuf := rfl

@[simp] theorem commandFail_err : (commandFail b e).err = errCode e := rfl
@[simp] theorem commandFail_crcPoly : (commandFail b e).crcPoly = b.crcPoly := rfl
@[simp] theorem commandFail_crcInit : (commandFail b e).crcInit = b.crcInit := rfl
@[simp] theorem commandFail_crcXorout : (commandFail b e).crcXorout = b.crcXorout := rfl
@[simp] theorem commandFail_refin : (commandFail b e).refin = b.refin := rfl
@[simp] theorem commandFail_refout : (commandFail b e).refout = b.refout := rfl
@[simp] theorem commandFail_crcAcc : (commandFail b e).crcAcc = b.crcAcc := rfl
@[simp] theorem commandFail_value : (commandFail b e).value = b.value := rfl
@[simp] theorem commandFail_key : (commandFail b e).key = b.key := rfl
@[simp] theorem commandFail_ilen : (commandFail b e).ilen = b.ilen := rfl
@[simp] theorem commandFail_ibuf : (commandFail b e).ibuf = b.ibuf := rfl
@[simp] theorem commandFail_olen : (commandFail b e).olen = b.olen := rfl
@[simp] theorem commandFail_obuf : (commandFail b e).obuf = b.obuf := rfl

@[simp] theorem setObuf_err : (setObuf b t).err = b.err := rfl
@[simp] theorem setObuf_crcPoly : (setObuf b t).crcPoly = b.crcPoly := rfl
@[simp] theorem setObuf_crcInit : (setObuf b t).crcInit = b.crcInit := rfl
@[simp] theorem setObuf_crcXorout : (setObuf b t).crcXorout = b.crcXorout := rfl
@[simp] theorem setObuf_refin : (setObuf b t).refin = b.refin := rfl
@[simp] theorem setObuf_refout : (setObuf b t).refout = b.refout := rfl
@[simp] theorem setObuf_crcAcc : (setObuf b t).crcAcc = b.crcAcc := rfl
@[simp] theorem setObuf_value : (setObuf b t).value = b.value := rfl
@[simp] theorem setObuf_key : (setObuf b t).key = b.key := rfl
@[simp] theorem setObuf_ilen : (setObuf b t).ilen = b.ilen := rfl
@[simp] theorem setObuf_ibuf : (setObuf b t).ibuf = b.ibuf := rfl
@[simp] theorem setObuf_olen : (setObuf b t).olen = BitVec.ofNat 5 t.length := rfl
@[simp] theorem setObuf_obuf : (setObuf b t).obuf = Vector.ofFn fun i => t.getD i.val 0x00 := rfl

@[simp] theorem crcProcess_err : (crcProcess b t).err = b.err := rfl
@[simp] theorem crcProcess_crcPoly : (crcProcess b t).crcPoly = b.crcPoly := rfl
@[simp] theorem crcProcess_crcInit : (crcProcess b t).crcInit = b.crcInit := rfl
@[simp] theorem crcProcess_crcXorout : (crcProcess b t).crcXorout = b.crcXorout := rfl
@[simp] theorem crcProcess_refin : (crcProcess b t).refin = b.refin := rfl
@[simp] theorem crcProcess_refout : (crcProcess b t).refout = b.refout := rfl
@[simp] theorem crcProcess_crcAcc : (crcProcess b t).crcAcc = crc8UpdateAll b.crcAcc t b.crcPoly b.refin := rfl
@[simp] theorem crcProcess_value : (crcProcess b t).value = b.value := rfl
@[simp] theorem crcProcess_key : (crcProcess b t).key = b.key := rfl
@[simp] theorem crcProcess_ilen : (crcProcess b t).ilen = b.ilen := rfl
@[simp] theorem crcProcess_ibuf : (crcProcess b t).ibuf = b.ibuf := rfl
@[simp] theorem crcProcess_olen : (crcProcess b t).olen = b.olen := rfl
@[simp] theorem crcProcess_obuf : (crcProcess b t).obuf = b.obuf := rfl

end Block

section State

variable (s : State) (r : Response) (w : Word) (nbits n : Nat)

@[simp] theorem respond_block : (respond r s).block = s.block := rfl
@[simp] theorem respond_pending : (respond r s).pending = s.pending := rfl
@[simp] theorem respond_responses : (respond r s).responses = s.responses ++ [r] := rfl
@[simp] theorem respond_resetHeld : (respond r s).resetHeld = s.resetHeld := rfl
@[simp] theorem respond_coreBase : (respond r s).coreBase = s.coreBase := rfl

@[simp] theorem stepResetAssert_block : (stepResetAssert s).block = Block.reset := rfl
@[simp] theorem stepResetAssert_pending : (stepResetAssert s).pending = s.pending := rfl
@[simp] theorem stepResetAssert_responses : (stepResetAssert s).responses = s.responses := rfl
@[simp] theorem stepResetAssert_resetHeld : (stepResetAssert s).resetHeld = true := rfl
@[simp] theorem stepResetAssert_coreBase : (stepResetAssert s).coreBase = s.coreBase := rfl

@[simp] theorem stepResetRelease_block : (stepResetRelease s).block = s.block := rfl
@[simp] theorem stepResetRelease_pending : (stepResetRelease s).pending = s.pending := rfl
@[simp] theorem stepResetRelease_responses : (stepResetRelease s).responses = s.responses := rfl
@[simp] theorem stepResetRelease_resetHeld : (stepResetRelease s).resetHeld = false := rfl
@[simp] theorem stepResetRelease_coreBase : (stepResetRelease s).coreBase = s.coreBase := rfl

@[simp] theorem offerCommand_block : (offerCommand w s).block = s.block := rfl
@[simp] theorem offerCommand_pending : (offerCommand w s).pending = writeEvent s.coreBase .cmd w :: s.pending := rfl
@[simp] theorem offerCommand_responses : (offerCommand w s).responses = s.responses := rfl
@[simp] theorem offerCommand_resetHeld : (offerCommand w s).resetHeld = false := rfl
@[simp] theorem offerCommand_coreBase : (offerCommand w s).coreBase = s.coreBase := rfl

theorem withFetchWord_eq : s.withFetchWord nbits n = offerCommand (BitVec.ofNat 32 n) s := rfl

end State

end Sys2Proof.Machine
end

