-- ==== Sys2Proof/Laws/Bytes.lean ====
section
/-! SUPPORT. Words made of bytes, 64-bit operands made of words, and the words of a buffer (20_memory.md R56, R57). -/

namespace Sys2Proof.Machine

theorem dwordOfWords_toNat (lo hi : Word) : (dwordOfWords lo hi).toNat = lo.toNat + hi.toNat * 2 ^ 32 := by
  have h1 := lo.isLt
  have h2 := hi.isLt
  unfold dwordOfWords
  simp only [BitVec.toNat_or, BitVec.toNat_shiftLeft, BitVec.toNat_setWidth]
  rw [Nat.mod_eq_of_lt (a := lo.toNat) (by omega), Nat.mod_eq_of_lt (a := hi.toNat) (by omega), Nat.shiftLeft_eq,
    Nat.mod_eq_of_lt (by omega), Nat.or_comm, Nat.mul_comm, ← Nat.two_pow_add_eq_or_of_lt h1]
  omega

theorem dwordLo_toNat (v : DWord) : (dwordLo v).toNat = v.toNat % 2 ^ 32 := by simp [dwordLo]

theorem dwordHi_toNat (v : DWord) : (dwordHi v).toNat = v.toNat / 2 ^ 32 := by
  have := v.isLt
  simp [dwordHi, Nat.shiftRight_eq_div_pow]
  omega

@[simp] theorem dwordLo_dwordOfWords (lo hi : Word) : dwordLo (dwordOfWords lo hi) = lo := by
  apply BitVec.eq_of_toNat_eq
  rw [dwordLo_toNat, dwordOfWords_toNat]
  have := lo.isLt
  omega

@[simp] theorem dwordHi_dwordOfWords (lo hi : Word) : dwordHi (dwordOfWords lo hi) = hi := by
  apply BitVec.eq_of_toNat_eq
  rw [dwordHi_toNat, dwordOfWords_toNat]
  have := lo.isLt
  omega

@[simp] theorem dwordOfWords_halves (v : DWord) : dwordOfWords (dwordLo v) (dwordHi v) = v := by
  apply BitVec.eq_of_toNat_eq
  rw [dwordOfWords_toNat, dwordLo_toNat, dwordHi_toNat]
  omega

theorem wordOfBytes_toNat (a b c d : Byte) :
    (wordOfBytes a b c d).toNat = a.toNat + b.toNat * 2 ^ 8 + c.toNat * 2 ^ 16 + d.toNat * 2 ^ 24 := by
  have h1 := a.isLt
  have h2 := b.isLt
  have h3 := c.isLt
  have h4 := d.isLt
  have e1 : a.toNat ||| b.toNat * 2 ^ 8 = a.toNat + b.toNat * 2 ^ 8 := by
    rw [Nat.or_comm, Nat.mul_comm, ← Nat.two_pow_add_eq_or_of_lt h1]
    omega
  have e2 : (a.toNat + b.toNat * 2 ^ 8) ||| c.toNat * 2 ^ 16 = a.toNat + b.toNat * 2 ^ 8 + c.toNat * 2 ^ 16 := by
    rw [Nat.or_comm, Nat.mul_comm c.toNat, ← Nat.two_pow_add_eq_or_of_lt (by omega)]
    omega
  have e3 : (a.toNat + b.toNat * 2 ^ 8 + c.toNat * 2 ^ 16) ||| d.toNat * 2 ^ 24 =
      a.toNat + b.toNat * 2 ^ 8 + c.toNat * 2 ^ 16 + d.toNat * 2 ^ 24 := by
    rw [Nat.or_comm, Nat.mul_comm d.toNat, ← Nat.two_pow_add_eq_or_of_lt (by omega)]
    omega
  unfold wordOfBytes
  simp only [BitVec.toNat_or, BitVec.toNat_shiftLeft, BitVec.toNat_setWidth, Nat.shiftLeft_eq]
  rw [Nat.mod_eq_of_lt (a := a.toNat) (by omega), Nat.mod_eq_of_lt (a := b.toNat) (by omega),
    Nat.mod_eq_of_lt (a := c.toNat) (by omega), Nat.mod_eq_of_lt (a := d.toNat) (by omega),
    Nat.mod_eq_of_lt (by omega), Nat.mod_eq_of_lt (by omega), Nat.mod_eq_of_lt (by omega), e1, e2, e3]

/-- The bytes of a word made of bytes. -/
theorem wordOfBytes_bytes (a b c d : Byte) :
    (wordOfBytes a b c d).extractLsb' 0 8 = a ∧ (wordOfBytes a b c d).extractLsb' 8 8 = b ∧
    (wordOfBytes a b c d).extractLsb' 16 8 = c ∧ (wordOfBytes a b c d).extractLsb' 24 8 = d := by
  have := wordOfBytes_toNat a b c d
  have := a.isLt
  have := b.isLt
  have := c.isLt
  have := d.isLt
  refine ⟨?_, ?_, ?_, ?_⟩ <;> apply BitVec.eq_of_toNat_eq <;> simp [Nat.shiftRight_eq_div_pow] <;> omega

/-- The bytes of a buffer after a write of word `k`. -/
theorem setBufWord_getElem (buf : Vector Byte 16) (k : Fin 4) (d : Word) (i : Nat) (h : i < 16) :
    (setBufWord buf k d)[i] = if i / 4 = k.val then d.extractLsb' (8 * (i % 4)) 8 else buf[i] := by
  simp [setBufWord]

/-- The word just written. -/
theorem bufWord_setBufWord_same (buf : Vector Byte 16) (k : Fin 4) (d : Word) :
    bufWord (setBufWord buf k d) k = d := by
  have hk := k.isLt
  have hd := d.isLt
  apply BitVec.eq_of_toNat_eq
  unfold bufWord
  rw [wordOfBytes_toNat]
  simp only [setBufWord_getElem, show 4 * k.val / 4 = k.val by omega, show (4 * k.val + 1) / 4 = k.val by omega,
    show (4 * k.val + 2) / 4 = k.val by omega, show (4 * k.val + 3) / 4 = k.val by omega, if_true,
    show 4 * k.val % 4 = 0 by omega, show (4 * k.val + 1) % 4 = 1 by omega,
    show (4 * k.val + 2) % 4 = 2 by omega, show (4 * k.val + 3) % 4 = 3 by omega]
  simp [Nat.shiftRight_eq_div_pow]
  omega

/-- The other words. -/
theorem bufWord_setBufWord_of_ne (buf : Vector Byte 16) {k k' : Fin 4} (d : Word) (h : k ≠ k') :
    bufWord (setBufWord buf k d) k' = bufWord buf k' := by
  have hk := k'.isLt
  have hne : ¬ k'.val = k.val := fun h' => h (Fin.ext h'.symm)
  unfold bufWord
  simp only [setBufWord_getElem, show 4 * k'.val / 4 = k'.val by omega,
    show (4 * k'.val + 1) / 4 = k'.val by omega, show (4 * k'.val + 2) / 4 = k'.val by omega,
    show (4 * k'.val + 3) / 4 = k'.val by omega, hne, if_false]

/-- The low bits of a word, as the field of that width. -/
theorem setWidth_extractLsb'_eq_and (d : Word) {n : Nat} (hn : n ≤ 32) :
    (d.extractLsb' 0 n).setWidth 32 = d &&& BitVec.ofNat 32 (2 ^ n - 1) := by
  have hle : 2 ^ n ≤ 2 ^ 32 := Nat.pow_le_pow_right (by norm_num) hn
  have hpos : 0 < 2 ^ n := by positivity
  have hlt : d.toNat % 2 ^ n < 2 ^ n := Nat.mod_lt _ hpos
  apply BitVec.eq_of_toNat_eq
  rw [BitVec.toNat_and, BitVec.toNat_ofNat, Nat.mod_eq_of_lt (a := 2 ^ n - 1) (by omega),
    Nat.and_two_pow_sub_one_eq_mod]
  simp
  omega

end Sys2Proof.Machine
end

