-- ==== Sys2Proof/Laws/Decode.lean ====
section
/-! SUPPORT. The fields of command words (30_encoding.md R70). -/

namespace Sys2Proof

@[simp] theorem cmdOpc_cmdWord (opc imm : Byte) : cmdOpc (cmdWord opc imm) = opc := by
  unfold cmdOpc cmdWord
  ext i hi
  simp [hi, show i < 32 by omega]

@[simp] theorem cmdImm8_cmdWord (opc imm : Byte) : cmdImm8 (cmdWord opc imm) = imm := by
  unfold cmdImm8 cmdWord
  ext i hi
  simp [hi, show 8 + i < 32 by omega]

@[simp] theorem cmdRsv_cmdWord (opc imm : Byte) : cmdRsv (cmdWord opc imm) = 0 := by
  unfold cmdRsv cmdWord
  ext i hi
  have h : opc.getLsbD (16 + i) = false := BitVec.getLsbD_of_ge _ _ (by omega)
  have h' : 8 ≤ 16 + i - 8 := by omega
  simp [h, h']

/-- A word whose RSV field is 0 is the word of its other two fields. -/
theorem cmdWord_of_fields (w : Word) (h : cmdRsv w = 0) : cmdWord (cmdOpc w) (cmdImm8 w) = w := by
  have hb (i : Nat) (h16 : 16 ≤ i) : w.getLsbD i = false := by
    by_cases hi : i < 32
    · have := congrArg (·.getLsbD (i - 16)) h
      simpa [cmdRsv, show i - 16 < 16 by omega, show 16 + (i - 16) = i by omega] using this
    · exact BitVec.getLsbD_of_ge _ _ (by omega)
  apply BitVec.eq_of_getLsbD_eq
  intro i hi
  unfold cmdWord cmdOpc cmdImm8
  by_cases h8 : i < 8
  · simp [h8, hi]
  · by_cases h16 : i < 16
    · simp [hi, h8, show i - 8 < 8 by omega, show 8 + (i - 8) = i by omega]
    · rw [hb i (by omega)]
      simp [h8, show ¬ i - 8 < 8 by omega]

/-- The fields of a word as numbers. -/
theorem cmdOpc_toNat (w : Word) : (cmdOpc w).toNat = w.toNat % 256 := by
  simp [cmdOpc]

theorem cmdImm8_toNat (w : Word) : (cmdImm8 w).toNat = w.toNat / 256 % 256 := by
  simp [cmdImm8, Nat.shiftRight_eq_div_pow]

theorem cmdRsv_toNat (w : Word) : (cmdRsv w).toNat = w.toNat / 65536 := by
  have := w.isLt
  simp [cmdRsv, Nat.shiftRight_eq_div_pow]
  omega

end Sys2Proof
end

