-- ==== Sys2Proof/Laws/Ops.lean ====
section
/-! SUPPORT. What the shared operations of the commands can do, said once: the inputs, the command frame of 44_system.md R172
and `set_obuf` of 10_state.md R33. -/

namespace Sys2Proof.Machine

@[simp] theorem finish_ok (s : State) (b : Block) : finish s (.ok b) = .next { s with block := commandOk b } := rfl

@[simp] theorem finish_error (s : State) (e : ErrorKind) :
    finish s (.error e) = .next { s with block := commandFail s.block e } := rfl

/-- Everything the command frame can do. -/
theorem finish_cases {s t : State} {r : Except ErrorKind Block} (h : finish s r = .next t) :
    (∃ b, r = .ok b ∧ t = { s with block := commandOk b }) ∨
    (∃ e, r = .error e ∧ t = { s with block := commandFail s.block e }) := by
  cases r with
  | ok b => exact .inl ⟨b, rfl, by simpa using h.symm⟩
  | error e => exact .inr ⟨e, rfl, by simpa using h.symm⟩

theorem errCode_ne_zero (e : ErrorKind) : errCode e ≠ 0 := by cases e <;> decide

theorem errCode_le (e : ErrorKind) : (errCode e).toNat ≤ 5 := by cases e <;> decide

theorem ibufBytes_length (b : Block) : (ibufBytes b).length = min b.ilen.toNat 16 := by
  simp [ibufBytes]

theorem genericInput_of_le {b : Block} (h : b.ilen.toNat ≤ 16) : genericInput b = .ok (ibufBytes b) := by
  simp [genericInput, Nat.not_lt.mpr h]

theorem genericInput_of_gt {b : Block} (h : 16 < b.ilen.toNat) : genericInput b = .error .range := by
  simp [genericInput, h]

theorem serialInput_of_eq {b : Block} {n : Nat} (h : b.ilen.toNat = n) : serialInput n b = .ok (ibufBytes b) := by
  simp [serialInput, h]

theorem serialInput_of_ne {b : Block} {n : Nat} (h : b.ilen.toNat ≠ n) : serialInput n b = .error .format := by
  simp [serialInput, h]

@[simp] theorem withInput_ok (t : List Byte) (f : List Byte → Except ErrorKind Block) :
    withInput (.ok t) f = f t := rfl

@[simp] theorem withInput_error (e : ErrorKind) (f : List Byte → Except ErrorKind Block) :
    withInput (.error e) f = .error e := rfl

@[simp] theorem toObuf_ok (b : Block) (t : List Byte) : toObuf b (.ok t) = .ok (setObuf b t) := rfl

@[simp] theorem toObuf_error (b : Block) (e : ErrorKind) : toObuf b (.error e) = .error e := rfl

/-- A text result that succeeds is the text in OBUF. -/
theorem toObuf_eq_ok {b b' : Block} {r : Except ErrorKind (List Byte)} (h : toObuf b r = .ok b') :
    ∃ t, r = .ok t ∧ b' = setObuf b t := by
  cases r with
  | ok t => exact ⟨t, rfl, by simpa using h.symm⟩
  | error e => simp at h

/-- An input that succeeds, and the rule's result on it. -/
theorem withInput_eq_ok {i : Except ErrorKind (List Byte)} {f : List Byte → Except ErrorKind Block} {b : Block}
    (h : withInput i f = .ok b) : ∃ t, i = .ok t ∧ f t = .ok b := by
  cases i with
  | ok t => exact ⟨t, rfl, h⟩
  | error e => simp at h

theorem genericInput_eq_ok {b : Block} {t : List Byte} (h : genericInput b = .ok t) :
    b.ilen.toNat ≤ 16 ∧ t = ibufBytes b := by
  unfold genericInput at h
  split at h
  · simp at h
  · exact ⟨by omega, by simpa using h.symm⟩

theorem serialInput_eq_ok {b : Block} {n : Nat} {t : List Byte} (h : serialInput n b = .ok t) :
    b.ilen.toNat = n ∧ t = ibufBytes b := by
  by_cases hn : b.ilen.toNat = n
  · exact ⟨hn, by simpa [serialInput_of_eq hn] using h.symm⟩
  · simp [serialInput_of_ne hn] at h

/-- The bytes of OBUF after `set_obuf`. -/
theorem setObuf_getElem (b : Block) (t : List Byte) (i : Nat) (h : i < 16) :
    (setObuf b t).obuf[i] = t.getD i 0x00 := by
  simp

/-- The rule of each command, apart from the frame: the block after its writes, or its first failing check. -/
def commandResult (i : Instr) (b : Block) : Except ErrorKind Block :=
  match i with
  | .nop => .ok b
  | .b36Enc minDigits => b36EncResult minDigits b
  | .b36Dec => withInput (genericInput b) (b36DecText b)
  | .crcReset => .ok { b with crcAcc := b.crcInit }
  | .crcByte data => .ok { b with crcAcc := crc8Update b.crcAcc data b.crcPoly b.refin }
  | .crcBuf => withInput (genericInput b) fun t => .ok (crcProcess b t)
  | .hkey => withInput (genericInput b) fun t => .ok { b with key := hashKey t }
  | .snMask => .ok { b with value := b.value ^^^ (b.key &&& Sys2Proof.Config.m50) }
  | .snEnc => withInput (serialInput Sys2Proof.Config.plainLen b) fun p => toObuf b (snEncode p)
  | .snDec => withInput (serialInput Sys2Proof.Config.encLen b) fun e => toObuf b (snDecode e)

/-- Everything a command's rule can write when it succeeds (10_state.md R41). -/
theorem commandResult_ok_cases {i : Instr} {b b' : Block} (h : commandResult i b = .ok b') :
    (i = .nop ∧ b' = b) ∨ (∃ n t, i = .b36Enc n ∧ t = b36Encode b.value.toNat n ∧ t.length ≤ 16 ∧ b' = setObuf b t) ∨
    (∃ v, i = .b36Dec ∧ b' = { b with value := v }) ∨
    (∃ a, (i = .crcReset ∨ (∃ c, i = .crcByte c) ∨ i = .crcBuf) ∧ b' = { b with crcAcc := a }) ∨
    (∃ k, i = .hkey ∧ b' = { b with key := k }) ∨
    (∃ v, i = .snMask ∧ b' = { b with value := v }) ∨
    (∃ t, i = .snEnc ∧ snEncode (ibufBytes b) = .ok t ∧ b' = setObuf b t) ∨
    (∃ t, i = .snDec ∧ snDecode (ibufBytes b) = .ok t ∧ b' = setObuf b t) := by
  cases i with
  | nop => simp_all [commandResult]
  | b36Enc n =>
    simp only [commandResult, b36EncResult] at h
    split at h
    · simp at h
    · refine .inr (.inl ⟨n, _, rfl, rfl, by omega, by simpa using h.symm⟩)
  | b36Dec =>
    obtain ⟨t, _, h⟩ := withInput_eq_ok h
    unfold b36DecText at h
    split at h
    · simp at h
    · split at h
      · simp at h
      · exact .inr (.inr (.inl ⟨_, rfl, by simpa using h.symm⟩))
  | crcReset => exact .inr (.inr (.inr (.inl ⟨_, .inl rfl, by simpa [commandResult] using h.symm⟩)))
  | crcByte c => exact .inr (.inr (.inr (.inl ⟨_, .inr (.inl ⟨c, rfl⟩), by simpa [commandResult] using h.symm⟩)))
  | crcBuf =>
    obtain ⟨t, _, h⟩ := withInput_eq_ok h
    exact .inr (.inr (.inr (.inl ⟨_, .inr (.inr rfl), by simpa [crcProcess] using h.symm⟩)))
  | hkey =>
    obtain ⟨t, _, h⟩ := withInput_eq_ok h
    exact .inr (.inr (.inr (.inr (.inl ⟨_, rfl, by simpa using h.symm⟩))))
  | snMask => exact .inr (.inr (.inr (.inr (.inr (.inl ⟨_, rfl, by simpa [commandResult] using h.symm⟩)))))
  | snEnc =>
    obtain ⟨t, hi, h⟩ := withInput_eq_ok h
    obtain ⟨u, hu, rfl⟩ := toObuf_eq_ok h
    obtain ⟨_, rfl⟩ := serialInput_eq_ok hi
    exact .inr (.inr (.inr (.inr (.inr (.inr (.inl ⟨_, rfl, hu, rfl⟩))))))
  | snDec =>
    obtain ⟨t, hi, h⟩ := withInput_eq_ok h
    obtain ⟨u, hu, rfl⟩ := toObuf_eq_ok h
    obtain ⟨_, rfl⟩ := serialInput_eq_ok hi
    exact .inr (.inr (.inr (.inr (.inr (.inr (.inr ⟨_, rfl, hu, rfl⟩))))))

/-- The block after a command whose rule gives `r` (R172). -/
def finishBlock (b : Block) (r : Except ErrorKind Block) : Block :=
  match r with
  | .ok b' => commandOk b'
  | .error e => commandFail b e

@[simp] theorem finishBlock_ok (b b' : Block) : finishBlock b (.ok b') = commandOk b' := rfl

@[simp] theorem finishBlock_error (b : Block) (e : ErrorKind) : finishBlock b (.error e) = commandFail b e := rfl

theorem finish_eq (s : State) (r : Except ErrorKind Block) :
    finish s r = .next { s with block := finishBlock s.block r } := by
  cases r <;> rfl

/-- Every command is its rule in the command frame (R172). -/
theorem exec_eq_finish (i : Instr) (s : State) : exec i s = finish s (commandResult i s.block) := by
  cases i <;> rfl

/-- Everything a command can do: its rule's writes with ERR 0, or the code of its error alone. -/
theorem exec_cases {i : Instr} {s t : State} (h : exec i s = .next t) :
    (∃ b, commandResult i s.block = .ok b ∧ t = { s with block := commandOk b }) ∨
    (∃ e, commandResult i s.block = .error e ∧ t = { s with block := commandFail s.block e }) :=
  finish_cases (exec_eq_finish i s ▸ h)

end Sys2Proof.Machine
end

