-- ==== Sys2Proof/Laws/PerInstr.lean ====
section
/-! SUPPORT. Statements made of every command, one lemma per constructor. -/

/-- The fields of the word of a well-formed command are those of its row of the table (30_encoding.md R70, R73). -/
def Sys2Proof.Laws.EncodeFields.Statement (i : Sys2Proof.Instr) : Prop :=
  i.wf = true →
    Sys2Proof.cmdRsv (Sys2Proof.encode i) = 0 ∧
    (Sys2Proof.cmdOpc (Sys2Proof.encode i)).toNat = Sys2Proof.Safety.tableOpcode i ∧
    (Sys2Proof.cmdImm8 (Sys2Proof.encode i)).toNat = Sys2Proof.Safety.tableImm i

namespace Sys2Proof.Laws.EncodeFields

theorem nop : Statement .nop := by
  intro _; simp [encode, Safety.tableOpcode, Safety.tableImm]

theorem b36Enc (minDigits : Nat) : Statement (.b36Enc minDigits) := by
  intro h
  have h : minDigits < 256 := by simpa [Instr.wf] using h
  simp [encode, Safety.tableOpcode, Safety.tableImm, Nat.mod_eq_of_lt h]

theorem b36Dec : Statement .b36Dec := by
  intro _; simp [encode, Safety.tableOpcode, Safety.tableImm]

theorem crcReset : Statement .crcReset := by
  intro _; simp [encode, Safety.tableOpcode, Safety.tableImm]

theorem crcByte (data : Byte) : Statement (.crcByte data) := by
  intro _; simp [encode, Safety.tableOpcode, Safety.tableImm]

theorem crcBuf : Statement .crcBuf := by
  intro _; simp [encode, Safety.tableOpcode, Safety.tableImm]

theorem hkey : Statement .hkey := by
  intro _; simp [encode, Safety.tableOpcode, Safety.tableImm]

theorem snMask : Statement .snMask := by
  intro _; simp [encode, Safety.tableOpcode, Safety.tableImm]

theorem snEnc : Statement .snEnc := by
  intro _; simp [encode, Safety.tableOpcode, Safety.tableImm]

theorem snDec : Statement .snDec := by
  intro _; simp [encode, Safety.tableOpcode, Safety.tableImm]

end Sys2Proof.Laws.EncodeFields
end

