-- ==== Sys2Proof/Laws/Serial.lean ====
section
/-! SUPPORT. What `sn_encode` and `sn_decode` accept, said once (43_serial.md R153, R154). -/

namespace Sys2Proof.Machine

open Sys2Proof.Config Sys2Proof.Safety

theorem crcText_length (c : Byte) : (b36Encode c.toNat 2).length = 2 :=
  b36Encode_length_of_lt (lt_trans c.isLt (by norm_num))

theorem isText_rbPrefix : IsText rbPrefix := by unfold IsText rbPrefix; decide

/-- The length of PREFIX and ten digits or more is 12 exactly when the value needs no eleventh digit. -/
theorem candidate_length (m : Nat) : (rbPrefix ++ b36Encode m 10).length = 12 ↔ m < 36 ^ 10 := by
  have h1 := b36Encode_length_le m 10 10
  have h2 := ((b36Encode_length_le m 10 _).mp le_rfl).1
  simp [rbPrefix] at h1 ⊢
  rw [← h1]
  omega

/-- Everything `sn_encode` accepts, and what it gives. -/
theorem snEncode_ok_iff {p e : List Byte} : snEncode p = .ok e ↔
    p.length = 12 ∧ p.take 2 = rbPrefix ∧ IsText (p.drop 2) ∧
    mask50 (textValue (p.drop 2)) (hashKey [crc8Cdma2000 p]) < 36 ^ 10 ∧
    e = rbPrefix ++ b36Encode (mask50 (textValue (p.drop 2)) (hashKey [crc8Cdma2000 p])) 10 ++
      b36Encode (crc8Cdma2000 p).toNat 2 := by
  unfold snEncode
  by_cases h1 : p.length ≠ plainLen ∨ p.take 2 ≠ rbPrefix
  · rw [if_pos h1]
    exact ⟨fun h => (nomatch h), fun ⟨a, b, _⟩ => h1.elim (absurd a) (absurd b)⟩
  · rw [if_neg h1]
    push Not at h1
    obtain ⟨hl, hp⟩ := h1
    have h10 : (p.drop 2).take 10 = p.drop 2 := List.take_of_length_le (by simp [hl])
    rw [h10]
    by_cases ht : IsText (p.drop 2)
    · rw [b36Decode_of_text ht]
      simp only [snEncodeMasked]
      generalize mask50 (textValue (p.drop 2)) (hashKey [crc8Cdma2000 p]) = m
      have hlen : (rbPrefix ++ b36Encode m digitsMasked ++ b36Encode (crc8Cdma2000 p).toNat digitsCrc).length =
          encLen ↔ m < 36 ^ 10 := by
        show ((rbPrefix ++ b36Encode m 10) ++ b36Encode (crc8Cdma2000 p).toNat 2).length = 14 ↔ m < 36 ^ 10
        rw [← candidate_length, List.length_append, crcText_length]
        omega
      by_cases hm : m < 36 ^ 10
      · rw [if_neg (not_not.mpr (hlen.mpr hm))]
        exact ⟨fun h => ⟨hl, hp, ht, hm, (Except.ok.inj h).symm⟩, by rintro ⟨_, _, _, _, rfl⟩; rfl⟩
      · rw [if_pos fun h => hm (hlen.mp h)]
        exact ⟨fun h => (nomatch h), fun ⟨_, _, _, h, _⟩ => absurd h hm⟩
    · rw [b36Decode_of_not_text ht]
      exact ⟨fun h => (nomatch h), fun ⟨_, _, h, _⟩ => absurd h ht⟩

/-- Everything `sn_decode` accepts, and what it gives. -/
theorem snDecode_ok_iff {e p : List Byte} : snDecode e = .ok p ↔
    e.length = 14 ∧ e.take 2 = rbPrefix ∧ IsText (e.drop 12) ∧ IsText ((e.drop 2).take 10) ∧
    textValue (e.drop 12) ≤ 255 ∧
    ∃ dev, dev = mask50 (textValue ((e.drop 2).take 10)) (hashKey [BitVec.ofNat 8 (textValue (e.drop 12))]) ∧
      (crc8Cdma2000 (rbPrefix ++ b36Encode dev 10)).toNat = textValue (e.drop 12) ∧ dev < 36 ^ 10 ∧
      p = rbPrefix ++ b36Encode dev 10 := by
  unfold snDecode
  by_cases h1 : e.length ≠ encLen ∨ e.take 2 ≠ rbPrefix
  · rw [if_pos h1]
    exact ⟨fun h => (nomatch h), fun ⟨a, b, _⟩ => h1.elim (absurd a) (absurd b)⟩
  · rw [if_neg h1]
    push Not at h1
    obtain ⟨hl, hp⟩ := h1
    have ht2 : (e.drop 12).take 2 = e.drop 12 := List.take_of_length_le (by simp [hl])
    rw [ht2]
    by_cases ht : IsText (e.drop 12)
    · rw [b36Decode_of_text ht]
      simp only
      by_cases hc : textValue (e.drop 12) > 255
      · rw [if_pos hc]
        exact ⟨fun h => (nomatch h), fun ⟨_, _, _, _, h, _⟩ => absurd h (by omega)⟩
      · rw [if_neg hc]
        by_cases hm : IsText ((e.drop 2).take 10)
        · rw [b36Decode_of_text hm]
          simp only [snVerify]
          generalize mask50 (textValue ((e.drop 2).take 10)) (hashKey [BitVec.ofNat 8 (textValue (e.drop 12))]) = dev
          by_cases hcrc : (crc8Cdma2000 (rbPrefix ++ b36Encode dev digitsMasked)).toNat = textValue (e.drop 12)
          · rw [if_neg (not_not.mpr hcrc)]
            by_cases hd : dev < 36 ^ 10
            · rw [if_neg (not_not.mpr ((candidate_length dev).mpr hd))]
              exact ⟨fun h => ⟨hl, hp, ht, hm, by omega, dev, rfl, hcrc, hd, (Except.ok.inj h).symm⟩,
                by rintro ⟨_, _, _, _, _, _, rfl, _, _, rfl⟩; rfl⟩
            · rw [if_pos fun h => hd ((candidate_length dev).mp h)]
              exact ⟨fun h => (nomatch h), by rintro ⟨_, _, _, _, _, _, rfl, _, h, _⟩; exact absurd h hd⟩
          · rw [if_pos hcrc]
            exact ⟨fun h => (nomatch h), by rintro ⟨_, _, _, _, _, _, rfl, h, _⟩; exact absurd h hcrc⟩
        · rw [b36Decode_of_not_text hm]
          exact ⟨fun h => (nomatch h), fun ⟨_, _, _, h, _⟩ => absurd h hm⟩
    · rw [b36Decode_of_not_text ht]
      exact ⟨fun h => (nomatch h), fun ⟨_, _, h, _⟩ => absurd h ht⟩

/-- The output of an encoding is a text of 14 bytes. -/
theorem snEncode_isText {p e : List Byte} (h : snEncode p = .ok e) : IsText e ∧ e.length = 14 := by
  obtain ⟨-, -, -, hm, rfl⟩ := snEncode_ok_iff.mp h
  exact ⟨isText_append (isText_append isText_rbPrefix (b36Encode_isText _ _)) (b36Encode_isText _ _), by
    rw [List.length_append, (candidate_length _).mpr hm, crcText_length]⟩

/-- The output of a decoding is a text of 12 bytes. -/
theorem snDecode_isText {e p : List Byte} (h : snDecode e = .ok p) : IsText p ∧ p.length = 12 := by
  obtain ⟨-, -, -, -, -, dev, -, -, hd, rfl⟩ := snDecode_ok_iff.mp h
  exact ⟨isText_append isText_rbPrefix (b36Encode_isText _ _), (candidate_length _).mpr hd⟩

end Sys2Proof.Machine
end

