-- ==== Sys2Proof/Laws/Step.lean ====
section
/-! SUPPORT. What a transaction and a step can do, said once (20_memory.md R53 to R55, 70_reset_and_hazards.md R200). -/

namespace Sys2Proof.Machine

theorem step_nil {s : State} (h : s.pending = []) : step s = .next s := by
  simp [step, h]

theorem step_cons {s : State} {e : BusEvent} {rest : List BusEvent} (h : s.pending = e :: rest) :
    step s = stepEvent e { s with pending := rest } := by
  simp [step, h]

/-- An offset in the window. -/
theorem windowOffset_of_lt {base offset : Nat} (h : offset < 128) :
    windowOffset base (base + offset) = some offset := by
  simp [windowOffset, Sys2Proof.Config.windowBytes, h]

theorem windowOffset_eq_some {base addr offset : Nat} (h : windowOffset base addr = some offset) :
    addr = base + offset ∧ offset < 128 := by
  unfold windowOffset Sys2Proof.Config.windowBytes at h
  split at h
  · obtain rfl : addr - base = offset := by simpa using h
    omega
  · simp at h

theorem windowOffset_eq_none {base addr : Nat} :
    windowOffset base addr = none ↔ ¬ (base ≤ addr ∧ addr < base + 128) := by
  unfold windowOffset Sys2Proof.Config.windowBytes
  split <;> simp_all

theorem admitted_eq_true {held : Bool} {offset widthBits : Nat} :
    admitted held offset widthBits = true ↔ held = false ∧ widthBits = 32 ∧ offset % 4 = 0 := by
  simp [admitted, and_assoc]

/-- CMD stands at offset 0 alone. -/
theorem regAt_eq_cmd {offset : Nat} : regAt offset = .cmd ↔ offset = 0 := by
  unfold regAt
  split <;> simp_all

/-- The one offset of the register that stands at an offset (R51). -/
theorem regOffset_regAt (offset : Nat) : regOffset (regAt offset) = offset := by
  unfold regAt
  split <;> rfl

/-- What a word written to CMD gives: its command's rule, or CommandError (R172). -/
def wordResult (w : Word) (b : Block) : Except ErrorKind Block :=
  match decode w with
  | .ok i => commandResult i b
  | .error _ => .error .command

theorem wordResult_of_ok {w : Word} {i : Instr} (h : decode w = .ok i) (b : Block) :
    wordResult w b = commandResult i b := by
  simp [wordResult, h]

theorem wordResult_of_error {w : Word} {e : DecodeError} (h : decode w = .error e) (b : Block) :
    wordResult w b = .error .command := by
  simp [wordResult, h]

/-- The block after an admitted write of `d` to the register `r`. -/
def writeBlock (r : Reg) (d : Word) (b : Block) : Block :=
  if r = .cmd then finishBlock b (wordResult d b) else writeReg b r d

@[simp] theorem writeBlock_cmd (d : Word) (b : Block) :
    writeBlock .cmd d b = finishBlock b (wordResult d b) := rfl

theorem writeBlock_of_ne {r : Reg} (h : r ≠ .cmd) (d : Word) (b : Block) : writeBlock r d b = writeReg b r d :=
  if_neg h

theorem perform_eq (w : Word) (s : State) :
    perform w s = .next { s with block := finishBlock s.block (wordResult w s.block) } := by
  unfold perform wordResult
  cases decode w with
  | ok i => simp [exec_eq_finish, finish_eq]
  | error e => simp [performIllegal]

/-- An admitted write completes and changes the block alone. -/
theorem writeAt_eq (r : Reg) (d : Word) (s : State) :
    writeAt r d s = .next { s with block := writeBlock r d s.block } := by
  by_cases h : r = .cmd
  · subst h
    exact perform_eq d s
  · unfold writeBlock
    rw [if_neg h]
    cases r <;> first | exact absurd rfl h | rfl

/-- Everything one transaction of the block can do. -/
theorem transact_cases (offset : Nat) (t : Transaction) (s : State) :
    (admitted s.resetHeld offset t.widthBits = false ∧ transact offset t s = .fault .busError) ∨
    (admitted s.resetHeld offset t.widthBits = true ∧ t.access = .read ∧
      transact offset t s = .next (s, .readData (readReg s.block (regAt offset)))) ∨
    (∃ d, admitted s.resetHeld offset t.widthBits = true ∧ t.access = .write d ∧
      transact offset t s = .next ({ s with block := writeBlock (regAt offset) d s.block }, .writeDone)) := by
  unfold transact
  cases ha : admitted s.resetHeld offset t.widthBits
  · exact .inl ⟨rfl, by simp⟩
  · cases hx : t.access with
    | read => exact .inr (.inl ⟨rfl, rfl, by simp⟩)
    | write d => exact .inr (.inr ⟨d, rfl, rfl, by simp [writeAt_eq]⟩)

/-- Everything a transaction at an absolute address can do: outside the window nothing; a bus error, answered; a read,
answered; or a write, answered. -/
theorem stepTransaction_cases (t : Transaction) (s : State) :
    (windowOffset s.coreBase t.addr = none ∧ stepTransaction t s = .next s) ∨
    (∃ offset, windowOffset s.coreBase t.addr = some offset ∧
      ((admitted s.resetHeld offset t.widthBits = false ∧
          stepTransaction t s = .next (respond (.fault .busError) s)) ∨
        (admitted s.resetHeld offset t.widthBits = true ∧ t.access = .read ∧
          stepTransaction t s = .next (respond (.readData (readReg s.block (regAt offset))) s)) ∨
        (∃ d, admitted s.resetHeld offset t.widthBits = true ∧ t.access = .write d ∧
          stepTransaction t s =
            .next (respond .writeDone { s with block := writeBlock (regAt offset) d s.block })))) := by
  unfold stepTransaction
  cases hw : windowOffset s.coreBase t.addr with
  | none => exact .inl ⟨rfl, rfl⟩
  | some offset =>
    refine .inr ⟨offset, rfl, ?_⟩
    rcases transact_cases offset t s with ⟨ha, h⟩ | ⟨ha, hx, h⟩ | ⟨d, ha, hx, h⟩
    · exact .inl ⟨ha, by simp [h]⟩
    · exact .inr (.inl ⟨ha, hx, by simp [h]⟩)
    · exact .inr (.inr ⟨d, ha, hx, by simp [h]⟩)

/-- Everything a step can do: idle; an edge of the reset line; a transaction outside the window, which is taken and does
nothing; a refused transaction; a read; or a write. -/
theorem step_cases {s t : State} (h : step s = .next t) :
    (s.pending = [] ∧ t = s) ∨
    (∃ rest, s.pending = .resetAssert :: rest ∧ t = stepResetAssert { s with pending := rest }) ∨
    (∃ rest, s.pending = .resetRelease :: rest ∧ t = stepResetRelease { s with pending := rest }) ∨
    (∃ tr rest, s.pending = .transaction tr :: rest ∧
      ((windowOffset s.coreBase tr.addr = none ∧ t = { s with pending := rest }) ∨
        (∃ offset, windowOffset s.coreBase tr.addr = some offset ∧
          ((admitted s.resetHeld offset tr.widthBits = false ∧
              t = respond (.fault .busError) { s with pending := rest }) ∨
            (admitted s.resetHeld offset tr.widthBits = true ∧ tr.access = .read ∧
              t = respond (.readData (readReg s.block (regAt offset))) { s with pending := rest }) ∨
            (∃ d, admitted s.resetHeld offset tr.widthBits = true ∧ tr.access = .write d ∧
              t = respond .writeDone
                { s with pending := rest, block := writeBlock (regAt offset) d s.block }))))) := by
  cases hp : s.pending with
  | nil => exact .inl ⟨rfl, by simpa [step_nil hp] using h.symm⟩
  | cons e rest =>
    rw [step_cons hp] at h
    cases e with
    | resetAssert => exact .inr (.inl ⟨rest, rfl, by simpa [stepEvent] using h.symm⟩)
    | resetRelease => exact .inr (.inr (.inl ⟨rest, rfl, by simpa [stepEvent] using h.symm⟩))
    | transaction tr =>
      refine .inr (.inr (.inr ⟨tr, rest, rfl, ?_⟩))
      simp only [stepEvent] at h
      rcases stepTransaction_cases tr { s with pending := rest } with
        ⟨hw, h'⟩ | ⟨offset, hw, ⟨ha, h'⟩ | ⟨ha, hx, h'⟩ | ⟨d, ha, hx, h'⟩⟩
      · exact .inl ⟨hw, by simpa [h'] using h.symm⟩
      · exact .inr ⟨offset, hw, .inl ⟨ha, by simpa [h'] using h.symm⟩⟩
      · exact .inr ⟨offset, hw, .inr (.inl ⟨ha, hx, by simpa [h'] using h.symm⟩)⟩
      · exact .inr ⟨offset, hw, .inr (.inr ⟨d, ha, hx, by simpa [h'] using h.symm⟩)⟩

/-- Where a step answers a next state, the run goes on from it. -/
theorem run_succ_of_step {n : Nat} {s t : State} (h : step s = .next t) :
    Host.Core.run Sys2Proof.core (n + 1) s = Host.Core.run Sys2Proof.core n t := by
  have h' : Sys2Proof.core.step s = .next t := h
  have hr (M : Host.Core) (m : Nat) (x : M.State) :
      M.run (m + 1) x =
        match M.step x with
        | .next y => M.run m y
        | .fault r => .fault r
        | .refused r => .refused r := rfl
  exact (hr Sys2Proof.core n s).trans (by rw [h'])

/-- A host's write of a register of the window. -/
theorem step_writeEvent {s : State} {r : Reg} {d : Word} {rest : List BusEvent} (hr : s.resetHeld = false)
    (hm : regAt (regOffset r) = r ∧ regOffset r < 128 ∧ regOffset r % 4 = 0)
    (hp : s.pending = writeEvent s.coreBase r d :: rest) :
    step s = .next (respond .writeDone { s with pending := rest, block := writeBlock r d s.block }) := by
  rw [step_cons hp]
  simp only [writeEvent, stepEvent, stepTransaction]
  rw [windowOffset_of_lt hm.2.1]
  simp only [transact, admitted_eq_true.mpr ⟨hr, rfl, hm.2.2⟩, hm.1, writeAt_eq]
  rfl

/-- A host's read of a register of the window. -/
theorem step_readEvent {s : State} {r : Reg} {rest : List BusEvent} (hr : s.resetHeld = false)
    (hm : regAt (regOffset r) = r ∧ regOffset r < 128 ∧ regOffset r % 4 = 0)
    (hp : s.pending = readEvent s.coreBase r :: rest) :
    step s = .next (respond (.readData (readReg s.block r)) { s with pending := rest }) := by
  rw [step_cons hp]
  simp only [readEvent, stepEvent, stepTransaction]
  rw [windowOffset_of_lt hm.2.1]
  simp only [transact, admitted_eq_true.mpr ⟨hr, rfl, hm.2.2⟩, hm.1]
  rfl

open Sys2Proof.Safety

@[simp] theorem runEvents_nil (s : State) : runEvents [] s = .next { s with pending := [] } := rfl

/-- The run of a list of events goes on from the state its first event leads to. -/
theorem runEvents_cons {s t : State} {e : BusEvent} {es : List BusEvent}
    (h : step { s with pending := e :: es } = .next t) (hp : t.pending = es) :
    runEvents (e :: es) s = runEvents es t := by
  subst hp
  exact run_succ_of_step h

theorem runEvents_write {s : State} {r : Reg} {d : Word} {es : List BusEvent} {base : Nat}
    (hr : s.resetHeld = false) (hb : s.coreBase = base)
    (hm : regAt (regOffset r) = r ∧ regOffset r < 128 ∧ regOffset r % 4 = 0) :
    runEvents (writeEvent base r d :: es) s =
      runEvents es (respond .writeDone { s with block := writeBlock r d s.block }) := by
  subst hb
  exact (runEvents_cons (step_writeEvent (s := { s with pending := _ }) hr hm rfl) rfl).trans rfl

theorem runEvents_read {s : State} {r : Reg} {es : List BusEvent} {base : Nat}
    (hr : s.resetHeld = false) (hb : s.coreBase = base)
    (hm : regAt (regOffset r) = r ∧ regOffset r < 128 ∧ regOffset r % 4 = 0) :
    runEvents (readEvent base r :: es) s = runEvents es (respond (.readData (readReg s.block r)) s) := by
  subst hb
  exact (runEvents_cons (step_readEvent (s := { s with pending := _ }) hr hm rfl) rfl).trans rfl

/-- A host's writes of registers of the window, one after another. -/
theorem runEvents_writes {base : Nat} (ws : List (Reg × Word)) (es : List BusEvent) (s : State)
    (hr : s.resetHeld = false) (hb : s.coreBase = base)
    (hm : ∀ w ∈ ws, regAt (regOffset w.1) = w.1 ∧ regOffset w.1 < 128 ∧ regOffset w.1 % 4 = 0) :
    runEvents (ws.map (fun w => writeEvent base w.1 w.2) ++ es) s =
      runEvents es { s with
        block := ws.foldl (fun b w => writeBlock w.1 w.2 b) s.block
        responses := s.responses ++ List.replicate ws.length .writeDone } := by
  induction ws generalizing s with
  | nil => simp
  | cons w ws ih =>
    rw [List.map_cons, List.cons_append, runEvents_write hr hb (hm w (by simp)),
      ih (respond .writeDone { s with block := writeBlock w.1 w.2 s.block }) hr hb fun x hx => hm x (by simp [hx])]
    simp [respond, List.replicate_succ]

/-- A host's reads of registers of the window, one after another. -/
theorem runEvents_reads {base : Nat} (rs : List Reg) (es : List BusEvent) (s : State)
    (hr : s.resetHeld = false) (hb : s.coreBase = base)
    (hm : ∀ r ∈ rs, regAt (regOffset r) = r ∧ regOffset r < 128 ∧ regOffset r % 4 = 0) :
    runEvents (rs.map (readEvent base) ++ es) s =
      runEvents es { s with responses := s.responses ++ rs.map (fun r => .readData (readReg s.block r)) } := by
  induction rs generalizing s with
  | nil => simp
  | cons r rs ih =>
    rw [List.map_cons, List.cons_append, runEvents_read hr hb (hm r (by simp)),
      ih (respond (.readData (readReg s.block r)) s) hr hb fun x hx => hm x (by simp [hx])]
    simp [respond]

end Sys2Proof.Machine
end

