-- ==== Sys2Proof/Tests/Slice0.lean ====
section
/-! SUPPORT. Tests of the model, each expected value from the place of spec/ that its comment names, and a witness for the
hypotheses of every statement that has some. -/

namespace Sys2Proof.Tests

open Sys2Proof Sys2Proof.Machine Sys2Proof.Safety Sys2Proof.Config

/-! ## Helpers -/

/-- The next state of an outcome, where it is one. -/
def toState : Host.Outcome State Fault Refusal → Option State
  | .next s => some s
  | .fault _ => none
  | .refused _ => none

/-- The state after a command; `toState` tells that there is one. -/
def after (i : Instr) (s : State) : State := (toState (exec i s)).getD s

/-- The state after a step; `toState` tells that there is one. -/
def afterStep (s : State) : State := (toState (step s)).getD s

theorem exec_after {i : Instr} {s : State} (h : (toState (exec i s)).isSome = true) : exec i s = .next (after i s) := by
  unfold after
  cases he : exec i s <;> simp_all [toState]

theorem step_after {s : State} (h : (toState (step s)).isSome = true) : step s = .next (afterStep s) := by
  unfold afterStep
  cases he : step s <;> simp_all [toState]

/-- The reset block with other contents. -/
def machine (b : Block) : State := { State.reset with block := b }

/-- The bytes `t` in IBUF and `l` in ILEN, all else at reset. -/
def loadedLen (l : BitVec 5) (t : List Byte) : State :=
  machine { Block.reset with ibuf := Vector.ofFn fun i => t.getD i.val 0, ilen := l }

/-- The bytes `t` in IBUF and their number in ILEN, all else at reset. -/
def loaded (t : List Byte) : State := loadedLen (BitVec.ofNat 5 t.length) t

/-- One event pending, all else at reset, with the window at 0x80. -/
def offered (e : BusEvent) : State := { State.reset with pending := [e], coreBase := 0x80 }

/-- "123456789" -/
def digits9 : List Byte := [0x31, 0x32, 0x33, 0x34, 0x35, 0x36, 0x37, 0x38, 0x39]

/-- "RB00D30GR9J1" (43_serial.md R155). -/
def plainText : List Byte := [0x52, 0x42, 0x30, 0x30, 0x44, 0x33, 0x30, 0x47, 0x52, 0x39, 0x4A, 0x31]

/-- "RB90FJ7SIHYU1F" (43_serial.md R155). -/
def encodedText : List Byte :=
  [0x52, 0x42, 0x39, 0x30, 0x46, 0x4A, 0x37, 0x53, 0x49, 0x48, 0x59, 0x55, 0x31, 0x46]

/-- "RBZZZZZZZZZZ" (43_serial.md R158). -/
def overflowText : List Byte := [0x52, 0x42, 0x5A, 0x5A, 0x5A, 0x5A, 0x5A, 0x5A, 0x5A, 0x5A, 0x5A, 0x5A]

/-- "RBZX3DRHOXLC00" (43_serial.md R159). -/
def longCandidateText : List Byte :=
  [0x52, 0x42, 0x5A, 0x58, 0x33, 0x44, 0x52, 0x48, 0x4F, 0x58, 0x4C, 0x43, 0x30, 0x30]

/-! ## WellFormed: the one check, refused and passed at its boundary (30_encoding.md R74) -/

theorem test_wf_refuses_a_min_digits_of_nine_bits : Instr.wf (.b36Enc 256) = false := by decide
theorem test_wf_takes_the_widest_min_digits : Instr.wf (.b36Enc 255) = true := by decide

/-! ## Decoding: words written bit by bit as RSV, IMM8, OPC (30_encoding.md R70, R73) -/

theorem test_decode_nop : decode 0b0000000000000000_00000000_00000000 = .ok .nop := by decide
theorem test_decode_b36Enc : decode 0b0000000000000000_00001010_00010000 = .ok (.b36Enc 10) := by decide
theorem test_decode_b36Dec : decode 0b0000000000000000_00000000_00010001 = .ok .b36Dec := by decide
theorem test_decode_crcReset : decode 0b0000000000000000_00000000_00100000 = .ok .crcReset := by decide
theorem test_decode_crcByte : decode 0b0000000000000000_10110001_00100001 = .ok (.crcByte 0xB1) := by decide
theorem test_decode_crcBuf : decode 0b0000000000000000_00000000_00100010 = .ok .crcBuf := by decide
theorem test_decode_hkey : decode 0b0000000000000000_00000000_00110000 = .ok .hkey := by decide
theorem test_decode_snMask : decode 0b0000000000000000_00000000_01000000 = .ok .snMask := by decide
theorem test_decode_snEnc : decode 0b0000000000000000_00000000_01000001 = .ok .snEnc := by decide
theorem test_decode_snDec : decode 0b0000000000000000_00000000_01000010 = .ok .snDec := by decide

/-- The three kinds of illegal word, in the order of R72's checks (R75). -/
theorem test_decode_rejects_by_name :
    decode 0b1000000000000000_00000001_11111111 = .error .reservedNonzero ∧
    decode 0b0000000000000000_00000001_11111111 = .error .unassignedOpcode ∧
    decode 0b0000000000000000_10000000_01000010 = .error .immediateNonzero := by decide

theorem test_decodeTableWord :
    decodeTableWord 32 0x0000FF10 = some (.b36Enc 255) ∧ decodeTableWord 8 0x21 = some (.crcByte 0x00) ∧
    decodeTableWord 32 0x00000012 = none ∧ decodeTableWord 32 0x100000000 = none := by decide

/-- A placed word runs as the very next step: an illegal one leaves ERR at 5 (44_system.md R171). -/
theorem test_withFetchWord :
    (afterStep (State.reset.withFetchWord 32 0x000000FF)).block.err = 5 ∧
    (afterStep (State.reset.withFetchWord 32 0x00003121)).block.crcAcc = 0xB6 ∧
    (afterStep (State.reset.withFetchWord 32 0x00003121)).pending = [] := by decide

/-! ## The commands -/

/-- 44_system.md R170, example. -/
theorem test_nop : readReg (after .nop (machine { Block.reset with err := 3 })).block .status = 0 := by decide

/-- 40_base36.md R104, example. -/
theorem test_b36Enc : let t := after (.b36Enc 1) (machine { Block.reset with value := 35 })
    readReg t.block (.obuf 0) = 0x0000005A ∧ t.block.olen = 1 := by decide +kernel

/-- 40_base36.md R104: `md` = 17. -/
theorem test_b36Enc_range : after (.b36Enc 17) State.reset = machine { Block.reset with err := 4 } := by decide +kernel

/-- 40_base36.md R105, example: "00D30GR9J1". -/
theorem test_b36Dec : (after .b36Dec (loaded (plainText.drop 2))).block.value = 1025292626173 := by decide +kernel

/-- 40_base36.md R105: lower-case "z". -/
theorem test_b36Dec_digit : (after .b36Dec (loaded [0x7A])).block.err = 2 := by decide +kernel

/-- 41_crc8.md R125, example. -/
theorem test_crcReset : (after .crcReset (machine { Block.reset with crcAcc := 0x12 })).block.crcAcc = 0xFF := by decide

/-- 41_crc8.md R126, corner case. -/
theorem test_crcByte : (after (.crcByte 0x00) State.reset).block.crcAcc = 0x7B := by decide

/-- 41_crc8.md R126 with R121: the reflected byte. `rev8(0x8C) = 0x31`, and 0x31 gives 0xB6. -/
theorem test_crcByte_reflected :
    (after (.crcByte 0x8C) (machine { Block.reset with refin := true })).block.crcAcc = 0xB6 := by decide

/-- 41_crc8.md R127, example. -/
theorem test_crcBuf : readReg (after .crcBuf (loaded digits9)).block .crcOut = 0xDA := by decide +kernel

/-- 41_crc8.md R130: the parameters (0x31, 0x00, 1, 1, 0x00) over "123456789". -/
theorem test_crcBuf_reflected :
    readReg (after .crcBuf (machine { (loaded digits9).block with
      crcPoly := 0x31, crcAcc := 0x00, refin := true, refout := true })).block .crcOut = 0xA1 := by decide +kernel

/-- 42_hashkey.md R143, example. -/
theorem test_hkey : let t := after .hkey (loaded [0x33])
    readReg t.block .keyHi = 0x4E074085 ∧ readReg t.block .keyLo = 0x62BEDB8B := by decide +kernel

/-- 42_hashkey.md R143: ILEN = 17. -/
theorem test_hkey_range : after .hkey (loadedLen 17 []) =
    machine { (loadedLen 17 []).block with err := 4 } := by decide +kernel

/-- The first and last round constants and initial hash words of FIPS 180-4, which are computed here (log 5). -/
theorem test_sha_constants :
    shaRoundConstants.length = 64 ∧ shaRoundConstants.getD 0 0 = 0x428A2F98 ∧
    shaRoundConstants.getD 63 0 = 0xC67178F2 ∧ shaInitial.a = 0x6A09E667 ∧ shaInitial.h = 0x5BE0CD19 := by
  decide +kernel

/-- 41_crc8.md R123: without reversal the output constant alone acts. -/
theorem test_crcOut_xorout :
    readReg { Block.reset with crcAcc := 0xB6, crcXorout := 0xFF } .crcOut = 0x49 := by decide

/-- 43_serial.md R157, example. -/
theorem test_snMask :
    (after .snMask (machine { Block.reset with value := 1025292626173, key := 0x4E07408562BEDB8B })).block.value =
      915256902497142 := by decide

/-- 43_serial.md R158, example. -/
theorem test_snEnc : let t := after .snEnc (loaded plainText)
    t.block.obuf.toList = encodedText ++ [0x00, 0x00] ∧ t.block.olen = 14 := by decide +kernel

/-- 43_serial.md R158: "RBZZZZZZZZZZ". -/
theorem test_snEnc_format : (after .snEnc (loaded overflowText)).block.err = 1 := by decide +kernel

/-- 43_serial.md R159, example. -/
theorem test_snDec : let t := after .snDec (loaded encodedText)
    t.block.obuf.toList = plainText ++ [0x00, 0x00, 0x00, 0x00] ∧ t.block.olen = 12 := by decide +kernel

/-- 43_serial.md R159: "RBZX3DRHOXLC00", whose candidate has 13 bytes. -/
theorem test_snDec_format : (after .snDec (loaded longCandidateText)).block.err = 1 := by decide +kernel

/-! ## Transactions -/

/-- A 16-bit write of a NOP to CMD: a bus error, and no command (20_memory.md R53). -/
theorem test_narrow_write_is_refused :
    let s := { offered (.transaction ⟨0x80, 16, .write 0⟩) with block := { Block.reset with err := 3 } }
    (afterStep s).responses = [.fault .busError] ∧ (afterStep s).block = s.block := by decide

/-- A write of ones to CRC_CTRL, which has two fields (10_state.md R27). -/
theorem test_ctrl_has_two_bits :
    readReg (afterStep (offered (.transaction ⟨0x94, 32, .write 0xFFFFFFFF⟩))).block .crcCtrl = 0x3 := by decide

/-- The packing example of 20_memory.md R56. -/
theorem test_buffer_words : readReg (loaded digits9).block (.ibuf 1) = 0x38373635 := by decide

/-! ## Witnesses: for each statement with hypotheses, operands that meet them -/

/-- EveryWordDecodesByRule, DecodeAndEncodeAgree: a word that decodes, at the largest immediate. -/
theorem witness_word_decodes : decode 0x0000FF10 = .ok (.b36Enc 255) ∧ Instr.wf (.b36Enc 255) = true ∧
    encode (.b36Enc 255) = 0x0000FF10 := by decide

/-- LegalWordsMatchExactlyOneTableRow. -/
theorem witness_row_matches : ((0x00000021, 0xFFFF00FF) : Word × Word) ∈ tableRows ∧
    (0x0000FF21 : Word) &&& 0xFFFF00FF = 0x00000021 := by decide

/-- ResetEventRestoresAndHoldsOffTheHosts, its first two clauses. -/
theorem witness_reset_edges : (offered .resetAssert).pending = .resetAssert :: [] ∧
    (offered .resetRelease).pending = .resetRelease :: [] := ⟨rfl, rfl⟩

/-- ResetEventRestoresAndHoldsOffTheHosts, its third clause, at the last address of the window. -/
theorem witness_held_transaction :
    let s := { offered (.transaction ⟨0xFF, 32, .read⟩) with resetHeld := true }
    s.resetHeld = true ∧ s.pending = .transaction ⟨0xFF, 32, .read⟩ :: [] ∧
    inWindow s.coreBase (.transaction ⟨0xFF, 32, .read⟩) = true := by decide

/-- StepPerformsTheDecodedCommand. -/
theorem witness_command_write :
    let e : BusEvent := .transaction ⟨0x80, 32, .write 0x00003121⟩
    (offered e).pending = e :: [] ∧ IsWriteAt (offered e) e 0x00 0x00003121 ∧ decode 0x00003121 = .ok (.crcByte 0x31) ∧
    exec (.crcByte 0x31) { offered e with pending := [] } = .next (after (.crcByte 0x31) { offered e with pending := [] }) :=
  ⟨rfl, ⟨rfl, rfl⟩, by decide, exec_after (by decide)⟩

/-- IllegalWordOnlySetsCommandError. -/
theorem witness_illegal_write :
    let e : BusEvent := .transaction ⟨0x80, 32, .write 0x00010041⟩
    (offered e).pending = e :: [] ∧ IsWriteAt (offered e) e 0x00 0x00010041 ∧
    decode 0x00010041 = .error .reservedNonzero :=
  ⟨rfl, ⟨rfl, rfl⟩, by decide⟩

/-- RefusedTransactionChangesNothingAndIsReported: a narrow access, and one that is not aligned. -/
theorem witness_refused :
    let t : Transaction := ⟨0x80, 16, .read⟩
    let u : Transaction := ⟨0xFE, 32, .read⟩
    ((offered (.transaction t)).pending = .transaction t :: [] ∧ inWindow 0x80 (.transaction t) = true ∧
      t.widthBits ≠ 32) ∧
    ((offered (.transaction u)).pending = .transaction u :: [] ∧ inWindow 0x80 (.transaction u) = true ∧
      (u.addr - 0x80) % 4 ≠ 0) := by decide

/-- AdmittedAccessesReadOrStore: a read of the last register of the window, and a write of the first after CMD. -/
theorem witness_admitted :
    ((offered (.transaction ⟨0x80 + 124, 32, .read⟩)).resetHeld = false ∧ 124 < 128 ∧ 124 % 4 = 0 ∧
      (offered (.transaction ⟨0x80 + 124, 32, .read⟩)).pending = .transaction ⟨0x80 + 124, 32, .read⟩ :: []) ∧
    ((offered (.transaction ⟨0x80 + 4, 32, .write 1⟩)).resetHeld = false ∧ 4 < 128 ∧ 4 % 4 = 0 ∧ 4 ≠ 0 ∧
      (offered (.transaction ⟨0x80 + 4, 32, .write 1⟩)).pending = .transaction ⟨0x80 + 4, 32, .write 1⟩ :: []) := by
  decide

/-- WindowShowsEveryRegisterAtItsOffset: a reserved offset on each side of the registers. -/
theorem witness_reserved_offsets : (0x3C = 0x38 ∨ 0x3C = 0x3C ∨ 0x60 ≤ 0x3C) ∧ (0x60 = 0x38 ∨ 0x60 = 0x3C ∨ 0x60 ≤ 0x60) :=
  by decide

/-- WriteLeavesEveryOtherRegister: the two halves of VALUE. -/
theorem witness_other_register : Reg.valueLo ≠ Reg.cmd ∧ Reg.valueLo ≠ Reg.valueHi ∧ Reg.valueHi ≠ Reg.crcOut := by
  decide

/-- WritesStoreFieldsAndReservedBitsReadZero, its clause on STATUS.ERR. -/
theorem witness_not_cmd : Reg.status ≠ Reg.cmd := by decide

/-- BufferWordsAreLittleEndian: a byte just outside the word, and the buffer of the example. -/
theorem witness_buffer : (4 : Fin 16).val / 4 ≠ (0 : Fin 4).val ∧
    (loaded digits9).block.ibuf = #v[0x31, 0x32, 0x33, 0x34, 0x35, 0x36, 0x37, 0x38, 0x39, 0, 0, 0, 0, 0, 0, 0] := by
  decide

/-- CrcOutReadsTheFinalisedAccumulator, and the statements on pseudo-instructions: reset is not held. -/
theorem witness_not_held : State.reset.resetHeld = false := rfl

/-- CoreBaseOnlyMovesTheWindow: the addresses just below and just above the window. -/
theorem witness_outside :
    ((offered (.transaction ⟨0x7F, 32, .read⟩)).pending = .transaction ⟨0x7F, 32, .read⟩ :: [] ∧
      inWindow 0x80 (.transaction ⟨0x7F, 32, .read⟩) = false) ∧
    ((offered (.transaction ⟨0x100, 32, .read⟩)).pending = .transaction ⟨0x100, 32, .read⟩ :: [] ∧
      inWindow 0x80 (.transaction ⟨0x100, 32, .read⟩) = false) := by decide

/-- InterleavedReaderDoesNotDisturb: a host's CRC_BYTE after the other's read of CRC_OUT. -/
theorem witness_interleaving :
    let w := writeEvent 0 .cmd 0x00003121
    let r := readEvent 0 .crcOut
    Interleaving [w] [r] [r, w] ∧ (∀ e ∈ [r], IsRead e) ∧
    ∃ u v, runEvents [r, w] State.reset = .next u ∧ runEvents [w] State.reset = .next v ∧
      v.block.crcAcc ≠ State.reset.block.crcAcc :=
  ⟨.right _ (.left _ .nil), by simpa using ⟨_, rfl, rfl⟩, _, _, rfl, rfl, by decide⟩

/-- StepKeepsTheInvariant: the reset state with a command pending. -/
theorem witness_invariant :
    let s := State.reset.withFetchWord 32 0x00000110
    Inv s ∧ step s = .next (afterStep s) ∧ afterStep s ≠ s :=
  ⟨⟨⟨by decide, by decide, by decide, by decide⟩, by decide, by decide⟩, step_after (by decide +kernel), by decide +kernel⟩

/-- ResetMeetsTheInvariant. -/
theorem witness_base : 0x80 % 128 = 0 := rfl

/-- OnlyCommandsAndResetChangeTheErrorCode. -/
theorem witness_error_changes :
    let s := State.reset.withFetchWord 32 0x000000FF
    step s = .next (afterStep s) ∧ (afterStep s).block.err ≠ s.block.err := ⟨step_after (by decide), by decide⟩

/-- OnlyHostsChangeConfigurationAndInput: for each of its clauses a step, of no reset, that makes the change. -/
theorem witness_configuration_changes :
    let w (r : Reg) : State := { State.reset with pending := [writeEvent 0 r 0x01] }
    (∀ r ∈ [Reg.crcPoly, .crcInit, .crcXorout, .crcCtrl, .ilen, .ibuf 3],
      step (w r) = .next (afterStep (w r)) ∧ ∀ rest, (w r).pending ≠ .resetAssert :: rest) ∧
    (afterStep (w .crcPoly)).block.crcPoly ≠ (w .crcPoly).block.crcPoly ∧
    (afterStep (w .crcInit)).block.crcInit ≠ (w .crcInit).block.crcInit ∧
    (afterStep (w .crcXorout)).block.crcXorout ≠ (w .crcXorout).block.crcXorout ∧
    ((afterStep (w .crcCtrl)).block.refin, (afterStep (w .crcCtrl)).block.refout) ≠
      ((w .crcCtrl).block.refin, (w .crcCtrl).block.refout) ∧
    (afterStep (w .ilen)).block.ilen ≠ (w .ilen).block.ilen ∧
    (afterStep (w (.ibuf 3))).block.ibuf[(12 : Fin 16)] ≠ (w (.ibuf 3)).block.ibuf[(12 : Fin 16)] := by
  refine ⟨fun r hr => ⟨step_after ?_, by simp [writeEvent]⟩, by decide, by decide, by decide, by decide, by decide,
    by decide⟩
  revert r
  decide

/-- FailedCommandWritesOnlyTheErrorCode. -/
theorem witness_failing : exec .snEnc State.reset = .next (after .snEnc State.reset) ∧
    (after .snEnc State.reset).block.err ≠ 0 := ⟨exec_after (by decide +kernel), by decide +kernel⟩

/-- CommandsWriteOnlyTheirOwnRegisters: for each of its clauses a command that makes the change. -/
theorem witness_commands_write :
    (exec .crcBuf (loaded digits9) = .next (after .crcBuf (loaded digits9)) ∧
      (after .crcBuf (loaded digits9)).block.crcAcc ≠ (loaded digits9).block.crcAcc) ∧
    (exec .b36Dec (loaded [0x5A]) = .next (after .b36Dec (loaded [0x5A])) ∧
      (after .b36Dec (loaded [0x5A])).block.value ≠ (loaded [0x5A]).block.value) ∧
    (exec .hkey (loaded []) = .next (after .hkey (loaded [])) ∧
      (after .hkey (loaded [])).block.key ≠ (loaded []).block.key) ∧
    (exec .snEnc (loaded plainText) = .next (after .snEnc (loaded plainText)) ∧
      ((after .snEnc (loaded plainText)).block.obuf, (after .snEnc (loaded plainText)).block.olen) ≠
        ((loaded plainText).block.obuf, (loaded plainText).block.olen)) :=
  ⟨⟨exec_after (by decide +kernel), by decide +kernel⟩, ⟨exec_after (by decide +kernel), by decide +kernel⟩,
    ⟨exec_after (by decide +kernel), by decide +kernel⟩, ⟨exec_after (by decide +kernel), by decide +kernel⟩⟩

/-- EachCommandReportsOnlyItsOwnCodes, its first clause; its second names its commands, and their codes are these. -/
theorem witness_codes : exec .snDec State.reset = .next (after .snDec State.reset) ∧
    (3 : BitVec 4) ∈ tableCodes .snDec ∧ (4 : BitVec 4) ∈ tableCodes .hkey := ⟨exec_after (by decide +kernel), by decide⟩

/-- InputBeyondIlenIsNeverRead: another byte just above the nine of the input. -/
theorem witness_beyond :
    let buf := (loaded digits9).block.ibuf.set 9 0x41
    (∀ j : Fin 16, j.val < (loaded digits9).block.ilen.toNat → buf[j] = (loaded digits9).block.ibuf[j]) ∧
    buf ≠ (loaded digits9).block.ibuf := by decide

/-- SetObufZeroFillsTheBuffer, at both ends of the range. -/
theorem witness_setObuf : ([] : List Byte).length ≤ 16 ∧ (List.replicate 16 (0x30 : Byte)).length ≤ 16 := by decide

/-- NopOnlyClearsTheErrorCode: illegal words with the opcode of NOP. -/
theorem witness_not_nop : (0x00000100 : Word).toNat % 256 = 0 ∧ (0x00000100 : Word) ≠ 0 ∧
    (0x80000000 : Word).toNat % 256 = 0 ∧ (0x80000000 : Word) ≠ 0 := by decide

/-- AlphabetIsDigitsThenUpperCase: the last digit, and bytes in and out of the alphabet. -/
theorem witness_alphabet : 35 < 36 ∧ (0x5A : Byte) ∈ alphabet ∧ (0x5B : Byte) ∉ alphabet := by decide

/-- EncodedTextIsTheShortestPaddedSpelling: "Z", of 35 with one digit or more. -/
theorem witness_spelling : IsText [0x5A] ∧ textValue [0x5A] = 35 ∧ 0 ≤ [(0x5A : Byte)].length ∧
    (0 < [(0x5A : Byte)].length → [(0x5A : Byte)].head? ≠ some 0x30) := by
  unfold IsText
  decide

/-- B36EncWritesTheTextOfValue, each clause at its boundary. -/
theorem witness_min_digits : 255 < 256 ∧ 16 ≤ 16 ∧ 16 < 17 := by decide

/-- B36DecLoadsValueOrReportsTheFirstError, each clause: ILEN 17; 16 bytes of which one is no digit; "3W5E11264SGSG"; and
"3W5E11264SGSF". -/
theorem witness_b36Dec :
    let s1 := loadedLen 17 []
    let s2 := loadedLen 16 []
    let s3 := loaded [0x33, 0x57, 0x35, 0x45, 0x31, 0x31, 0x32, 0x36, 0x34, 0x53, 0x47, 0x53, 0x47]
    let s4 := loaded [0x33, 0x57, 0x35, 0x45, 0x31, 0x31, 0x32, 0x36, 0x34, 0x53, 0x47, 0x53, 0x46]
    16 < s1.block.ilen.toNat ∧
    (s2.block.ilen.toNat ≤ 16 ∧ ¬ IsText (s2.block.ibuf.toList.take s2.block.ilen.toNat)) ∧
    (s3.block.ilen.toNat ≤ 16 ∧ IsText (s3.block.ibuf.toList.take s3.block.ilen.toNat) ∧
      2 ^ 64 ≤ textValue (s3.block.ibuf.toList.take s3.block.ilen.toNat)) ∧
    (s4.block.ilen.toNat ≤ 16 ∧ IsText (s4.block.ibuf.toList.take s4.block.ilen.toNat) ∧
      textValue (s4.block.ibuf.toList.take s4.block.ilen.toNat) = (0xFFFFFFFFFFFFFFFF : DWord).toNat) := by
  unfold IsText
  decide +kernel

/-- Rev8ReversesTheBits, and CrcOutReadsTheFinalisedAccumulator in its clause on bits. -/
theorem witness_bit : 7 < 8 := by decide

/-- CrcBufProcessesTheInputBytes and HkeyLoadsTheKeyOfTheInput: both sides of the bound on ILEN. -/
theorem witness_ilen : 16 < (loadedLen 17 []).block.ilen.toNat ∧ (loadedLen 16 []).block.ilen.toNat ≤ 16 := by decide

/-- CrcAccumulatesOverAnySplit. -/
theorem witness_feed : (loaded digits9).block.ilen.toNat ≤ 16 ∧ (loaded digits9).block.err = 0 := by decide

/-- SnMaskMasksValueWithTheKey and MaskIsAFiftyBitInvolution: the bits on either side of the mask. -/
theorem witness_mask_bits : 49 < 50 ∧ 50 < 64 ∧ ¬ 50 < 50 := by decide

/-- SnEncEncodesOrReportsTheFirstError, each clause in turn: ILEN 13; "rB..."; a lower-case digit; "RBZZZZZZZZZZ"; and
"RB00D30GR9J1". -/
theorem witness_snEnc :
    (loadedLen 13 plainText).block.ilen ≠ 12 ∧
    ((loaded (plainText.set 0 0x72)).block.ilen = 12 ∧
      ((loaded (plainText.set 0 0x72)).block.ibuf.toList.take 12).take 2 ≠ [0x52, 0x42]) ∧
    ((loaded (plainText.set 4 0x64)).block.ilen = 12 ∧
      ((loaded (plainText.set 4 0x64)).block.ibuf.toList.take 12).take 2 = [0x52, 0x42] ∧
      ¬ IsText (((loaded (plainText.set 4 0x64)).block.ibuf.toList.take 12).drop 2)) ∧
    ((loaded overflowText).block.ilen = 12 ∧ (loaded overflowText).block.ibuf.toList.take 12 = overflowText ∧
      overflowText.take 2 = [0x52, 0x42] ∧ IsText (overflowText.drop 2) ∧
      36 ^ 10 ≤ mask50 (textValue (overflowText.drop 2)) (hashKey [crc8Cdma2000 overflowText])) ∧
    ((loaded plainText).block.ilen = 12 ∧ (loaded plainText).block.ibuf.toList.take 12 = plainText ∧
      plainText.take 2 = [0x52, 0x42] ∧ IsText (plainText.drop 2) ∧
      mask50 (textValue (plainText.drop 2)) (hashKey [crc8Cdma2000 plainText]) < 36 ^ 10) := by
  unfold IsText
  decide +kernel

/-- SnDecVerifiesOrReportsTheFirstError, the errors before the candidate, each clause in turn: ILEN 13; "RC..."; "...1f"; the CRC
field 256, "74"; and a lower-case masked digit under the CRC field 255, "73". -/
theorem witness_snDec_fields :
    let bad : List Byte := (encodedText.take 12) ++ [0x37, 0x33]
    (loadedLen 13 encodedText).block.ilen ≠ 14 ∧
    ((loaded (encodedText.set 1 0x43)).block.ilen = 14 ∧
      ((loaded (encodedText.set 1 0x43)).block.ibuf.toList.take 14).take 2 ≠ [0x52, 0x42]) ∧
    ((loaded (encodedText.set 13 0x66)).block.ilen = 14 ∧
      (encodedText.set 13 0x66).take 2 = [0x52, 0x42] ∧ ¬ IsText ((encodedText.set 13 0x66).drop 12)) ∧
    ((loaded (encodedText.take 12 ++ [0x37, 0x34])).block.ilen = 14 ∧
      (encodedText.take 12 ++ [0x37, 0x34]).take 2 = [0x52, 0x42] ∧ IsText ([0x37, 0x34]) ∧ 255 < textValue [0x37, 0x34]) ∧
    ((loaded (bad.set 6 0x61)).block.ilen = 14 ∧ (bad.set 6 0x61).take 2 = [0x52, 0x42] ∧
      IsText ((bad.set 6 0x61).drop 12) ∧ textValue ((bad.set 6 0x61).drop 12) ≤ 255 ∧
      ¬ IsText (((bad.set 6 0x61).drop 2).take 10)) := by
  unfold IsText
  decide +kernel

/-- SnDecVerifiesOrReportsTheFirstError, the three outcomes of the candidate: "RB90FJ7SIHYU1G", "RBZX3DRHOXLC00" and
"RB90FJ7SIHYU1F". -/
theorem witness_snDec_candidate :
    let cand (e : List Byte) (c : Byte) : List Byte :=
      [0x52, 0x42] ++ b36Encode (mask50 (textValue ((e.drop 2).take 10)) (hashKey [c])) 10
    (∀ e ∈ [encodedText.set 13 0x47, longCandidateText, encodedText],
      (loaded e).block.ilen = 14 ∧ (loaded e).block.ibuf.toList.take 14 = e ∧ e.take 2 = [0x52, 0x42] ∧
      IsText (e.drop 12) ∧ IsText ((e.drop 2).take 10)) ∧
    (textValue ((encodedText.set 13 0x47).drop 12) = (0x34 : Byte).toNat ∧
      crc8Cdma2000 (cand (encodedText.set 13 0x47) 0x34) ≠ 0x34) ∧
    (textValue (longCandidateText.drop 12) = (0x00 : Byte).toNat ∧
      crc8Cdma2000 (cand longCandidateText 0x00) = 0x00 ∧ (cand longCandidateText 0x00).length ≠ 12) ∧
    (textValue (encodedText.drop 12) = (0x33 : Byte).toNat ∧
      crc8Cdma2000 (cand encodedText 0x33) = 0x33 ∧ (cand encodedText 0x33).length = 12) := by
  unfold IsText
  decide +kernel

/-- DecodingRestoresEveryEncodedIdentifier. -/
theorem witness_encodes : plainText.length = 12 ∧ snEncode plainText = .ok encodedText := by decide +kernel

/-- DecodingAcceptsOnlyEncodedIdentifiers. -/
theorem witness_decodes : snDecode encodedText = .ok plainText := by decide +kernel

/-- EncodedOutputDecodesToTheInput. -/
theorem witness_snEnc_succeeds : exec .snEnc (loaded plainText) = .next (after .snEnc (loaded plainText)) ∧
    (after .snEnc (loaded plainText)).block.err = 0 := ⟨exec_after (by decide +kernel), by decide +kernel⟩

/-- OnlyDeviceNumbersFromX9ALTVZ9XCCanOverflow. -/
theorem witness_overflow : IsText (overflowText.drop 2) ∧ (overflowText.drop 2).length = 10 ∧
    36 ^ 10 ≤ mask50 (textValue (overflowText.drop 2)) m50 := by
  unfold IsText
  decide +kernel

/-- NonAlphabetTamperingIsADigitError, at both ends of the range. -/
theorem witness_tamper : snDecode encodedText = .ok plainText ∧ (2 ≤ 2 ∧ 2 < 14) ∧ (2 ≤ 13 ∧ 13 < 14) ∧
    (0x66 : Byte) ∉ alphabet := ⟨witness_decodes, by decide, by decide, by decide⟩

/-- LdIbufLoadsTheText, at both ends of the range. -/
theorem witness_ld_ibuf : State.reset.resetHeld = false ∧ ([] : List Byte).length ≤ 16 ∧
    (plainText ++ plainText.take 4).length ≤ 16 := by decide

end Sys2Proof.Tests
end

/-! PROOFS. Completion: no command and no step ends in a fault or a refusal (00_scope.md R8, 60_exceptions.md R185). -/

namespace Sys2Proof.Machine

/-- The command frame always answers, and what it answers differs from the state before in the block alone (R172, R185). -/
theorem exec_eq_next (i : Instr) (s : State) :
    exec i s = .next { s with block := finishBlock s.block (commandResult i s.block) } := by
  rw [exec_eq_finish, finish_eq]

/-- A bus error is an answer to the host and leaves a next state as well (R53, log 2). -/
theorem stepTransaction_exists_next (t : Transaction) (s : State) : ∃ s', stepTransaction t s = .next s' := by
  rcases stepTransaction_cases t s with ⟨_, outside⟩ | ⟨_, _, ⟨_, refused⟩ | ⟨_, _, read⟩ | ⟨_, _, _, written⟩⟩
  · exact ⟨_, outside⟩
  · exact ⟨_, refused⟩
  · exact ⟨_, read⟩
  · exact ⟨_, written⟩

theorem stepEvent_exists_next (e : BusEvent) (s : State) : ∃ s', stepEvent e s = .next s' := by
  cases e with
  | transaction t => exact stepTransaction_exists_next t s
  | resetAssert => exact ⟨_, rfl⟩
  | resetRelease => exact ⟨_, rfl⟩

theorem step_exists_next (s : State) : ∃ s', step s = .next s' := by
  cases hp : s.pending with
  | nil => exact ⟨s, step_nil hp⟩
  | cons e rest =>
    rw [step_cons hp]
    exact stepEvent_exists_next e _

/-- Settles O19: every command runs in the command frame, and each kind of pending event leaves a next state. -/
theorem everyCommandAndStepCompletes : Obligations.EveryCommandAndStepCompletes := by
  unfold Obligations.EveryCommandAndStepCompletes
  exact ⟨fun i s => ⟨_, exec_eq_next i s⟩, step_exists_next⟩

end Sys2Proof.Machine

/-! PROOFS. The block's state (10_state.md): what each command may write, what each event may change, the invariant of every step,
the reset values, CRC_OUT and `set_obuf`. -/

namespace Sys2Proof.Machine

open Sys2Proof.Safety

/-! ## The write sets of the commands (R41) -/

/-- The registers that hosts alone write: the CRC configuration, ILEN and IBUF (R24 to R27, R32, R34). -/
structure SameHostRegisters (b b' : Block) : Prop where
  crcPoly : b'.crcPoly = b.crcPoly
  crcInit : b'.crcInit = b.crcInit
  crcXorout : b'.crcXorout = b.crcXorout
  refin : b'.refin = b.refin
  refout : b'.refout = b.refout
  ilen : b'.ilen = b.ilen
  ibuf : b'.ibuf = b.ibuf

/-- `b'` differs from `b` in STATUS.ERR and in what the row of R41 lets the command `i` write, at most. -/
structure WithinWriteSet (i : Instr) (b b' : Block) : Prop extends SameHostRegisters b b' where
  crcAcc : b'.crcAcc ≠ b.crcAcc → i = .crcReset ∨ (∃ c, i = .crcByte c) ∨ i = .crcBuf
  value : b'.value ≠ b.value → i = .b36Dec ∨ i = .snMask
  key : b'.key ≠ b.key → i = .hkey
  output : (b'.obuf, b'.olen) ≠ (b.obuf, b.olen) → (∃ n, i = .b36Enc n) ∨ i = .snEnc ∨ i = .snDec

theorem sameHostRegisters_commandFail (b : Block) (e : ErrorKind) : SameHostRegisters b (commandFail b e) :=
  ⟨rfl, rfl, rfl, rfl, rfl, rfl, rfl⟩

/-- A failing command writes its code alone (R181). -/
theorem withinWriteSet_commandFail (i : Instr) (b : Block) (e : ErrorKind) : WithinWriteSet i b (commandFail b e) :=
  ⟨sameHostRegisters_commandFail b e, absurd rfl, absurd rfl, absurd rfl, absurd rfl⟩

/-- `set_obuf` writes OBUF and OLEN alone (R33). -/
theorem withinWriteSet_setObuf {i : Instr} (b : Block) (t : List Byte)
    (hi : (∃ n, i = .b36Enc n) ∨ i = .snEnc ∨ i = .snDec) : WithinWriteSet i b (setObuf b t) :=
  ⟨⟨rfl, rfl, rfl, rfl, rfl, rfl, rfl⟩, absurd rfl, absurd rfl, absurd rfl, fun _ => hi⟩

/-- A command that writes VALUE alone. -/
theorem withinWriteSet_value {i : Instr} (b : Block) (v : DWord) (hi : i = .b36Dec ∨ i = .snMask) :
    WithinWriteSet i b { b with value := v } :=
  ⟨⟨rfl, rfl, rfl, rfl, rfl, rfl, rfl⟩, absurd rfl, fun _ => hi, absurd rfl, absurd rfl⟩

theorem commandResult_withinWriteSet {i : Instr} {b b' : Block} (h : commandResult i b = .ok b') :
    WithinWriteSet i b b' := by
  rcases commandResult_ok_cases h with ⟨-, rfl⟩ | ⟨n, t, rfl, -, -, rfl⟩ | ⟨v, rfl, rfl⟩ | ⟨a, hi, rfl⟩ |
    ⟨k, rfl, rfl⟩ | ⟨v, rfl, rfl⟩ | ⟨t, rfl, -, rfl⟩ | ⟨t, rfl, -, rfl⟩
  · exact ⟨⟨rfl, rfl, rfl, rfl, rfl, rfl, rfl⟩, absurd rfl, absurd rfl, absurd rfl, absurd rfl⟩
  · exact withinWriteSet_setObuf b t (.inl ⟨n, rfl⟩)
  · exact withinWriteSet_value b v (.inl rfl)
  · exact ⟨⟨rfl, rfl, rfl, rfl, rfl, rfl, rfl⟩, fun _ => hi, absurd rfl, absurd rfl, absurd rfl⟩
  · exact ⟨⟨rfl, rfl, rfl, rfl, rfl, rfl, rfl⟩, absurd rfl, absurd rfl, fun _ => rfl, absurd rfl⟩
  · exact withinWriteSet_value b v (.inr rfl)
  · exact withinWriteSet_setObuf b t (.inr (.inl rfl))
  · exact withinWriteSet_setObuf b t (.inr (.inr rfl))

/-- `ok()` writes STATUS.ERR alone (R172). -/
theorem WithinWriteSet.commandOk {i : Instr} {b b' : Block} (h : WithinWriteSet i b b') :
    WithinWriteSet i b (commandOk b') := by
  obtain ⟨⟨poly, init, xorout, refin, refout, ilen, ibuf⟩, acc, value, key, output⟩ := h
  exact ⟨⟨poly, init, xorout, refin, refout, ilen, ibuf⟩, acc, value, key, output⟩

theorem finishBlock_commandResult_withinWriteSet (i : Instr) (b : Block) :
    WithinWriteSet i b (finishBlock b (commandResult i b)) := by
  cases h : commandResult i b with
  | ok b' => exact (commandResult_withinWriteSet h).commandOk
  | error e => exact withinWriteSet_commandFail i b e

/-- Settles O26: a command runs in its frame, and its rule stays within its row of R41. -/
theorem commandsWriteOnlyTheirOwnRegisters : Obligations.CommandsWriteOnlyTheirOwnRegisters := by
  unfold Obligations.CommandsWriteOnlyTheirOwnRegisters
  intro i s t h
  rw [exec_eq_next] at h
  obtain rfl := Host.Outcome.next.inj h
  obtain ⟨⟨poly, init, xorout, refin, refout, ilen, ibuf⟩, acc, value, key, output⟩ :=
    finishBlock_commandResult_withinWriteSet i s.block
  exact ⟨⟨rfl, rfl, rfl, rfl⟩, ⟨poly, init, xorout, refin, refout, ilen, ibuf⟩, acc, value, key, output⟩

/-! ## What a write of a register changes (R54, R55) -/

/-- A word written to CMD, legal or not, leaves what hosts alone write. -/
theorem finishBlock_wordResult_sameHostRegisters (w : Word) (b : Block) :
    SameHostRegisters b (finishBlock b (wordResult w b)) := by
  cases h : decode w with
  | ok i =>
    rw [wordResult_of_ok h]
    exact (finishBlock_commandResult_withinWriteSet i b).toSameHostRegisters
  | error e =>
    rw [wordResult_of_error h]
    exact sameHostRegisters_commandFail b .command

section WriteBlock

variable {r : Reg} (d : Word) (b : Block)

theorem writeBlock_err_of_ne (h : r ≠ .cmd) : (writeBlock r d b).err = b.err := by
  cases r with
  | cmd => exact absurd rfl h
  | _ => rfl

theorem writeBlock_crcPoly_of_ne (h : r ≠ .crcPoly) : (writeBlock r d b).crcPoly = b.crcPoly := by
  cases r with
  | crcPoly => exact absurd rfl h
  | cmd => exact (finishBlock_wordResult_sameHostRegisters d b).crcPoly
  | _ => rfl

theorem writeBlock_crcInit_of_ne (h : r ≠ .crcInit) : (writeBlock r d b).crcInit = b.crcInit := by
  cases r with
  | crcInit => exact absurd rfl h
  | cmd => exact (finishBlock_wordResult_sameHostRegisters d b).crcInit
  | _ => rfl

theorem writeBlock_crcXorout_of_ne (h : r ≠ .crcXorout) : (writeBlock r d b).crcXorout = b.crcXorout := by
  cases r with
  | crcXorout => exact absurd rfl h
  | cmd => exact (finishBlock_wordResult_sameHostRegisters d b).crcXorout
  | _ => rfl

theorem writeBlock_crcCtrl_of_ne (h : r ≠ .crcCtrl) :
    ((writeBlock r d b).refin, (writeBlock r d b).refout) = (b.refin, b.refout) := by
  cases r with
  | crcCtrl => exact absurd rfl h
  | cmd =>
    have same := finishBlock_wordResult_sameHostRegisters d b
    exact Prod.ext same.refin same.refout
  | _ => rfl

theorem writeBlock_ilen_of_ne (h : r ≠ .ilen) : (writeBlock r d b).ilen = b.ilen := by
  cases r with
  | ilen => exact absurd rfl h
  | cmd => exact (finishBlock_wordResult_sameHostRegisters d b).ilen
  | _ => rfl

/-- Byte `i` of IBUF is in word `i / 4` (R56). -/
theorem writeBlock_ibuf_of_ne (i : Fin 16) (h : r ≠ .ibuf ⟨i.val / 4, by omega⟩) :
    (writeBlock r d b).ibuf[i] = b.ibuf[i] := by
  cases r with
  | ibuf k =>
    have hk : ¬ i.val / 4 = k.val := fun hk => h (congrArg Reg.ibuf (Fin.ext hk.symm))
    exact (setBufWord_getElem b.ibuf k d i.val i.isLt).trans (if_neg hk)
  | cmd => exact congrArg (·[i]) (finishBlock_wordResult_sameHostRegisters d b).ibuf
  | _ => rfl

end WriteBlock

/-! ## Which event changes a field of the block -/

/-- The register window has one offset for each register. -/
theorem regAt_injective : Function.Injective regAt :=
  Function.LeftInverse.injective regOffset_regAt

/-- Everything a step can do to the block: nothing, the reset values at the assertion of reset, or an admitted write. -/
theorem step_block_cases {s t : State} (h : step s = .next t) :
    t.block = s.block ∨
    (∃ rest, s.pending = .resetAssert :: rest ∧ t.block = Block.reset) ∨
    (∃ e rest offset d, s.pending = e :: rest ∧ IsWriteAt s e offset d ∧
      t.block = writeBlock (regAt offset) d s.block) := by
  rcases step_cases h with ⟨-, rfl⟩ | ⟨rest, hp, rfl⟩ | ⟨rest, -, rfl⟩ | ⟨⟨addr, width, access⟩, rest, hp,
    ⟨-, rfl⟩ | ⟨offset, hw, ⟨-, rfl⟩ | ⟨-, -, rfl⟩ | ⟨d, ha, hx, rfl⟩⟩⟩
  · exact .inl rfl
  · exact .inr (.inl ⟨rest, hp, rfl⟩)
  · exact .inl rfl
  · exact .inl rfl
  · exact .inl rfl
  · exact .inl rfl
  · obtain ⟨hheld, rfl, -⟩ := admitted_eq_true.mp ha
    obtain ⟨rfl, -⟩ := windowOffset_eq_some hw
    obtain rfl := hx
    exact .inr (.inr ⟨_, rest, offset, d, hp, ⟨hheld, rfl⟩, rfl⟩)

/-- What only a write at `offset` changes, a step changes only by an admitted write there, or by the assertion of reset. -/
theorem step_changes_only_by_write {α : Type} {f : Block → α} {offset : Nat}
    (hf : ∀ (r : Reg) (d : Word) (b : Block), r ≠ regAt offset → f (writeBlock r d b) = f b)
    {s t : State} (h : step s = .next t) (hne : f t.block ≠ f s.block) :
    (∃ rest, s.pending = .resetAssert :: rest) ∨ ∃ e rest d, s.pending = e :: rest ∧ IsWriteAt s e offset d := by
  rcases step_block_cases h with hb | ⟨rest, hp, -⟩ | ⟨e, rest, o, d, hp, hwrite, hb⟩
  · exact absurd (congrArg f hb) hne
  · exact .inl ⟨rest, hp⟩
  · have ho : regAt o = regAt offset := not_imp_comm.mp (hf (regAt o) d s.block) (hb ▸ hne)
    obtain rfl := regAt_injective ho
    exact .inr ⟨e, rest, d, hp, hwrite⟩

/-- Settles O23: of all registers, CMD alone changes STATUS.ERR when it is written. -/
theorem onlyCommandsAndResetChangeTheErrorCode : Obligations.OnlyCommandsAndResetChangeTheErrorCode := by
  unfold Obligations.OnlyCommandsAndResetChangeTheErrorCode
  intro s t h hne
  rcases step_changes_only_by_write (f := Block.err) (offset := 0x00)
    (fun _ d b hr => writeBlock_err_of_ne d b hr) h hne with ⟨rest, hp⟩ | ⟨e, rest, d, hp, hwrite⟩
  · exact ⟨_, rest, hp, .inl rfl⟩
  · exact ⟨e, rest, hp, .inr ⟨d, hwrite⟩⟩

/-- The register that holds byte `i` of IBUF (R51, R56). -/
theorem regAt_ibuf_of_byte (i : Fin 16) : regAt (0x40 + 4 * (i.val / 4)) = .ibuf ⟨i.val / 4, by omega⟩ := by
  revert i; decide

/-- Settles O24: each of these registers is changed by a write of its own offset alone, and not by a command. -/
theorem onlyHostsChangeConfigurationAndInput : Obligations.OnlyHostsChangeConfigurationAndInput := by
  unfold Obligations.OnlyHostsChangeConfigurationAndInput
  intro s t h hreset
  have byWrite {α : Type} {f : Block → α} {offset : Nat}
      (hf : ∀ (r : Reg) (d : Word) (b : Block), r ≠ regAt offset → f (writeBlock r d b) = f b)
      (hne : f t.block ≠ f s.block) : ∃ e rest d, s.pending = e :: rest ∧ IsWriteAt s e offset d :=
    (step_changes_only_by_write hf h hne).resolve_left fun ⟨rest, hp⟩ => hreset rest hp
  refine ⟨byWrite (f := Block.crcPoly) fun _ d b hr => writeBlock_crcPoly_of_ne d b hr,
    byWrite (f := Block.crcInit) fun _ d b hr => writeBlock_crcInit_of_ne d b hr,
    byWrite (f := Block.crcXorout) fun _ d b hr => writeBlock_crcXorout_of_ne d b hr,
    byWrite (f := fun b => (b.refin, b.refout)) fun _ d b hr => writeBlock_crcCtrl_of_ne d b hr,
    byWrite (f := Block.ilen) fun _ d b hr => writeBlock_ilen_of_ne d b hr,
    fun i => byWrite (f := fun b => b.ibuf[i]) fun _ d b hr => writeBlock_ibuf_of_ne d b i ?_⟩
  rwa [regAt_ibuf_of_byte] at hr

/-! ## `set_obuf` (R33, R207) -/

theorem setObuf_olen_toNat (b : Block) {t : List Byte} (h : t.length ≤ 16) : (setObuf b t).olen.toNat = t.length := by
  rw [setObuf_olen, BitVec.toNat_ofNat]
  omega

theorem setObuf_getElem_of_lt (b : Block) {t : List Byte} (i : Fin 16) (h : i.val < t.length) :
    (setObuf b t).obuf[i] = t[i.val] :=
  (setObuf_getElem b t i.val i.isLt).trans (List.getD_eq_getElem t 0x00 h)

theorem setObuf_getElem_of_le (b : Block) {t : List Byte} (i : Fin 16) (h : t.length ≤ i.val) :
    (setObuf b t).obuf[i] = 0x00 :=
  (setObuf_getElem b t i.val i.isLt).trans (List.getD_eq_default t 0x00 h)

/-- Settles O29, by the case of a byte below the length and the case of one above it; the length, at most 16, fits OLEN. -/
theorem setObufZeroFillsTheBuffer : Obligations.SetObufZeroFillsTheBuffer := by
  unfold Obligations.SetObufZeroFillsTheBuffer
  intro b t ht
  refine ⟨fun i => ?_, setObuf_olen_toNat b ht, rfl⟩
  split
  next h => exact setObuf_getElem_of_lt b i h
  next h => exact setObuf_getElem_of_le b i (Nat.not_lt.mp h)

/-! ## The invariant (R33, R39, R52, R200, R207) -/

theorem blockInv_reset : BlockInv Block.reset where
  err_le := by decide
  olen_le := by decide
  obuf_tail i _ := Vector.getElem_replicate i.isLt
  obuf_text i h := absurd h (Nat.not_lt_zero i.val)

/-- The invariant of the block speaks of STATUS.ERR, OLEN and OBUF alone. -/
theorem blockInv_of_same_output {b b' : Block} (h : BlockInv b) (herr : b'.err.toNat ≤ 5) (holen : b'.olen = b.olen)
    (hobuf : b'.obuf = b.obuf) : BlockInv b' := by
  obtain ⟨-, hle, htail, htext⟩ := h
  rw [← holen, ← hobuf] at htail htext
  exact ⟨herr, holen ▸ hle, htail, htext⟩

/-- A base-36 text of at most 16 bytes in OBUF meets the invariant, whatever was there before. -/
theorem blockInv_commandOk_setObuf (b : Block) {t : List Byte} (hlen : t.length ≤ 16) (htext : IsText t) :
    BlockInv (commandOk (setObuf b t)) := by
  have holen : (commandOk (setObuf b t)).olen.toNat = t.length := setObuf_olen_toNat b hlen
  refine ⟨Nat.zero_le 5, holen ▸ hlen, fun i hi => ?_, fun i hi => ?_⟩
  · exact setObuf_getElem_of_le b i (holen ▸ hi)
  · have hi' : i.val < t.length := holen ▸ hi
    rw [commandOk_obuf, setObuf_getElem_of_lt b i hi']
    exact htext _ (List.getElem_mem hi')

/-- A rule that succeeds leaves OBUF and OLEN, or puts there a text that its function gives (R104, R158, R159). -/
theorem commandResult_ok_output {i : Instr} {b b' : Block} (h : commandResult i b = .ok b') :
    (b'.olen = b.olen ∧ b'.obuf = b.obuf) ∨ ∃ t, t.length ≤ 16 ∧ IsText t ∧ b' = setObuf b t := by
  rcases commandResult_ok_cases h with ⟨-, rfl⟩ | ⟨n, t, -, rfl, hlen, rfl⟩ | ⟨v, -, rfl⟩ | ⟨a, -, rfl⟩ |
    ⟨k, -, rfl⟩ | ⟨v, -, rfl⟩ | ⟨t, -, henc, rfl⟩ | ⟨t, -, hdec, rfl⟩
  · exact .inl ⟨rfl, rfl⟩
  · exact .inr ⟨_, hlen, b36Encode_isText _ n, rfl⟩
  · exact .inl ⟨rfl, rfl⟩
  · exact .inl ⟨rfl, rfl⟩
  · exact .inl ⟨rfl, rfl⟩
  · exact .inl ⟨rfl, rfl⟩
  · obtain ⟨htext, hlen⟩ := snEncode_isText henc
    exact .inr ⟨t, by omega, htext, rfl⟩
  · obtain ⟨htext, hlen⟩ := snDecode_isText hdec
    exact .inr ⟨t, by omega, htext, rfl⟩

theorem blockInv_commandFail {b : Block} (h : BlockInv b) (e : ErrorKind) : BlockInv (commandFail b e) :=
  blockInv_of_same_output h (errCode_le e) rfl rfl

theorem blockInv_finishBlock_commandResult {b : Block} (h : BlockInv b) (i : Instr) :
    BlockInv (finishBlock b (commandResult i b)) := by
  cases hr : commandResult i b with
  | error e => exact blockInv_commandFail h e
  | ok b' =>
    rcases commandResult_ok_output hr with ⟨holen, hobuf⟩ | ⟨t, hlen, htext, rfl⟩
    · exact blockInv_of_same_output h (Nat.zero_le 5) holen hobuf
    · exact blockInv_commandOk_setObuf b hlen htext

theorem blockInv_finishBlock_wordResult {b : Block} (h : BlockInv b) (w : Word) :
    BlockInv (finishBlock b (wordResult w b)) := by
  cases hw : decode w with
  | ok i =>
    rw [wordResult_of_ok hw]
    exact blockInv_finishBlock_commandResult h i
  | error e =>
    rw [wordResult_of_error hw]
    exact blockInv_commandFail h .command

/-- STATUS, OLEN and OBUF are read-only, so no host writes what the invariant speaks of, but by a command (R54). -/
theorem blockInv_writeBlock {b : Block} (h : BlockInv b) (r : Reg) (d : Word) : BlockInv (writeBlock r d b) := by
  cases r with
  | cmd => exact blockInv_finishBlock_wordResult h d
  | _ => exact blockInv_of_same_output h h.err_le rfl rfl

/-- Settles O21, by the cases of a step: a write keeps the invariant of the block and is admitted only while reset is not held;
any other event leaves the block or resets it. -/
theorem stepKeepsTheInvariant : Obligations.StepKeepsTheInvariant := by
  unfold Obligations.StepKeepsTheInvariant
  rintro s t ⟨hblock, hbase, hheld⟩ h
  rcases step_cases h with ⟨-, rfl⟩ | ⟨rest, -, rfl⟩ | ⟨rest, -, rfl⟩ | ⟨tr, rest, -,
    ⟨-, rfl⟩ | ⟨offset, -, ⟨-, rfl⟩ | ⟨-, -, rfl⟩ | ⟨d, ha, -, rfl⟩⟩⟩
  · exact ⟨hblock, hbase, hheld⟩
  · exact ⟨blockInv_reset, hbase, fun _ => rfl⟩
  · exact ⟨hblock, hbase, fun hfalse => nomatch hfalse⟩
  · exact ⟨hblock, hbase, hheld⟩
  · exact ⟨hblock, hbase, hheld⟩
  · exact ⟨hblock, hbase, hheld⟩
  · obtain ⟨hfree, -, -⟩ := admitted_eq_true.mp ha
    exact ⟨blockInv_writeBlock hblock (regAt offset) d, hbase, fun htrue => absurd htrue (by simp [hfree])⟩

/-- Settles O22: reset is not held in the reset state, and its block meets the invariant. -/
theorem resetMeetsTheInvariant : Obligations.ResetMeetsTheInvariant := by
  unfold Obligations.ResetMeetsTheInvariant
  exact fun base hbase => ⟨blockInv_reset, hbase, fun hfalse => nomatch hfalse⟩

/-! ## The reset values (R40) -/

/-- Settles O5: every field has its value by definition, and every byte of a buffer is that of `Vector.replicate`. -/
theorem resetStateHoldsSpecValues : Obligations.ResetStateHoldsSpecValues := by
  unfold Obligations.ResetStateHoldsSpecValues
  exact ⟨rfl, rfl, rfl, rfl, rfl, rfl, rfl, rfl, rfl, rfl, rfl,
    fun i => ⟨Vector.getElem_replicate i.isLt, Vector.getElem_replicate i.isLt⟩⟩

/-! ## CRC_OUT (R29, R123) -/

section Transact

variable {s : State} {offset : Nat} (addr : Nat) (ha : admitted s.resetHeld offset 32 = true)
include ha

theorem transact_read :
    transact offset { addr := addr, widthBits := 32, access := .read } s =
      .next (s, .readData (readReg s.block (regAt offset))) := by
  simp [transact, ha]

theorem transact_write (d : Word) :
    transact offset { addr := addr, widthBits := 32, access := .write d } s =
      .next ({ s with block := writeBlock (regAt offset) d s.block }, .writeDone) := by
  simp [transact, ha, writeAt_eq]

end Transact

/-- `rev8` puts bit `7 - i` at bit `i` (R121). -/
theorem rev8_getLsbD (c : Byte) {i : Nat} (h : i < 8) : (rev8 c).getLsbD i = c.getLsbD (7 - i) := by
  rw [rev8, BitVec.getLsbD_ofBoolListBE]
  interval_cases i <;> rfl

/-- Settles O16: CRC_OUT stands at 0x1C, its read computes `crc8_finalize`, and a write to it stores nothing. -/
theorem crcOutReadsTheFinalisedAccumulator : Obligations.CrcOutReadsTheFinalisedAccumulator := by
  unfold Obligations.CrcOutReadsTheFinalisedAccumulator
  refine ⟨fun s d hheld => ?_, fun _ _ => rfl, fun acc xorout i hi => ?_⟩
  · have ha : admitted s.resetHeld 0x1C 32 = true := admitted_eq_true.mpr ⟨hheld, rfl, rfl⟩
    exact ⟨transact_read _ ha, transact_write _ ha d⟩
  · rw [crc8Finalize, if_pos rfl, BitVec.getLsbD_xor, rev8_getLsbD acc hi]

end Sys2Proof.Machine

/-! PROOFS. The register window (20_memory.md): which accesses it admits, what a read shows and a write stores, byte order, and
what the window's base, the events of a run and a second host's reads leave alone. -/

namespace Sys2Proof.Machine

open Sys2Proof.Safety

/-! ## What one transaction does, case by case (R52, R53, R55, R200) -/

theorem admitted_eq_false {held : Bool} {offset widthBits : Nat} :
    admitted held offset widthBits = false ↔ held = true ∨ widthBits ≠ 32 ∨ offset % 4 ≠ 0 := by
  rw [← Bool.not_eq_true, admitted_eq_true, not_and_or, not_and_or, Bool.not_eq_false]

/-- Settles O9: of the three cases of a transaction only the one that is not admitted has no successor state. -/
theorem onlyAlignedWordAccessesAreAdmitted : Obligations.OnlyAlignedWordAccessesAreAdmitted := by
  unfold Obligations.OnlyAlignedWordAccessesAreAdmitted
  intro offset t s
  rw [← admitted_eq_false]
  rcases transact_cases offset t s with ⟨ha, h⟩ | ⟨ha, -, h⟩ | ⟨d, ha, -, h⟩
  · simp [h, ha]
  · simp [h, ha]
  · simp [h, ha]

/-- A transaction is the block's exactly where it has an offset in the window (R52). -/
theorem inWindow_transaction (base : Nat) (t : Transaction) :
    inWindow base (.transaction t) = (windowOffset base t.addr).isSome := by
  rw [Bool.eq_iff_iff]
  simp [inWindow, windowOffset, Sys2Proof.Config.windowBytes]

theorem windowOffset_of_inWindow {base : Nat} {t : Transaction} (h : inWindow base (.transaction t) = true) :
    windowOffset base t.addr = some (t.addr - base) := by
  rw [inWindow_transaction, Option.isSome_iff_exists] at h
  obtain ⟨offset, hw⟩ := h
  obtain ⟨haddr, -⟩ := windowOffset_eq_some hw
  rw [hw, haddr, Nat.add_sub_cancel_left]

section StepTransaction

variable {t : Transaction} {s : State} {offset : Nat}

theorem stepTransaction_of_outside (hw : windowOffset s.coreBase t.addr = none) : stepTransaction t s = .next s := by
  simp [stepTransaction, hw]

theorem stepTransaction_of_refused (hw : windowOffset s.coreBase t.addr = some offset)
    (ha : admitted s.resetHeld offset t.widthBits = false) :
    stepTransaction t s = .next (respond (.fault .busError) s) := by
  simp [stepTransaction, hw, transact, ha]

theorem stepTransaction_of_read (hw : windowOffset s.coreBase t.addr = some offset)
    (ha : admitted s.resetHeld offset t.widthBits = true) (hx : t.access = .read) :
    stepTransaction t s = .next (respond (.readData (readReg s.block (regAt offset))) s) := by
  simp [stepTransaction, hw, transact, ha, hx]

theorem stepTransaction_of_write {d : Word} (hw : windowOffset s.coreBase t.addr = some offset)
    (ha : admitted s.resetHeld offset t.widthBits = true) (hx : t.access = .write d) :
    stepTransaction t s = .next (respond .writeDone { s with block := writeBlock (regAt offset) d s.block }) := by
  simp [stepTransaction, hw, transact, ha, hx, writeAt_eq]

end StepTransaction

/-- Settles O10: a transaction of the window that is not admitted is answered with the bus error and does nothing else. -/
theorem refusedTransactionChangesNothingAndIsReported :
    Obligations.RefusedTransactionChangesNothingAndIsReported := by
  unfold Obligations.RefusedTransactionChangesNothingAndIsReported
  intro s t rest hp hin hbad
  rw [step_cons hp]
  exact stepTransaction_of_refused (windowOffset_of_inWindow hin) (admitted_eq_false.mpr (.inr hbad))

/-- Settles O11: an aligned access of the window is admitted; a read leaves the block, and at an offset other than that of CMD
a write stores. -/
theorem admittedAccessesReadOrStore : Obligations.AdmittedAccessesReadOrStore := by
  unfold Obligations.AdmittedAccessesReadOrStore
  intro s rest offset hheld hlt halign
  have ha : admitted s.resetHeld offset 32 = true := admitted_eq_true.mpr ⟨hheld, rfl, halign⟩
  refine ⟨fun hp => ?_, fun d hne hp => ?_⟩
  · rw [step_cons hp]
    exact stepTransaction_of_read (windowOffset_of_lt hlt) ha rfl
  · have hcmd : regAt offset ≠ .cmd := mt regAt_eq_cmd.mp hne
    rw [step_cons hp, ← writeBlock_of_ne hcmd]
    exact stepTransaction_of_write (windowOffset_of_lt hlt) ha rfl

/-! ## What a register shows (R51, R54, R56, R57) -/

theorem regAt_of_reserved {offset : Nat} (h : offset = 0x38 ∨ offset = 0x3C ∨ 0x60 ≤ offset) :
    regAt offset = .reserved offset := by
  rcases h with rfl | rfl | h
  · rfl
  · rfl
  · unfold regAt
    split
    case h_23 => rfl
    all_goals omega

theorem ctrlWord_toNat (refin refout : Bool) :
    (ctrlWord refin refout).toNat = refin.toNat + 2 * refout.toNat := by
  cases refin <;> cases refout <;> rfl

/-- Byte `j` of a buffer's word `k` (R56). -/
theorem bufWord_extractLsb' (buf : Vector Byte 16) (k j : Fin 4) :
    (bufWord buf k).extractLsb' (8 * j.val) 8 = buf[4 * k.val + j.val] := by
  obtain ⟨h0, h1, h2, h3⟩ :=
    wordOfBytes_bytes buf[4 * k.val] buf[4 * k.val + 1] buf[4 * k.val + 2] buf[4 * k.val + 3]
  match j with
  | 0 => exact h0
  | 1 => exact h1
  | 2 => exact h2
  | 3 => exact h3

/-- Settles O12: the map of the window, then each register's field as a number. -/
theorem windowShowsEveryRegisterAtItsOffset : Obligations.WindowShowsEveryRegisterAtItsOffset := by
  unfold Obligations.WindowShowsEveryRegisterAtItsOffset
  refine ⟨⟨rfl, rfl, rfl, rfl, rfl, rfl, rfl, rfl, rfl, rfl, rfl, rfl, rfl, rfl⟩, by decide,
    fun offset h => regAt_of_reserved h, fun b => ?_⟩
  have field {n : Nat} (hn : n ≤ 32) (x : BitVec n) : (x.setWidth 32).toNat = x.toNat := BitVec.toNat_setWidth_of_le hn
  exact ⟨rfl, field (by norm_num) b.err, field (by norm_num) b.crcPoly, field (by norm_num) b.crcInit,
    field (by norm_num) b.crcXorout, ctrlWord_toNat b.refin b.refout, field (by norm_num) b.crcAcc,
    dwordLo_toNat b.value, dwordHi_toNat b.value, dwordLo_toNat b.key, dwordHi_toNat b.key,
    field (by norm_num) b.ilen, field (by norm_num) b.olen, field (by norm_num) (crcOut b),
    fun k j => ⟨bufWord_extractLsb' b.ibuf k j, bufWord_extractLsb' b.obuf k j⟩, fun _ => rfl⟩

/-- Settles O15: a buffer word is made of its four bytes, and a write of one splits it again. -/
theorem bufferWordsAreLittleEndian : Obligations.BufferWordsAreLittleEndian := by
  unfold Obligations.BufferWordsAreLittleEndian
  intro b k d
  refine ⟨wordOfBytes_toNat _ _ _ _, wordOfBytes_toNat _ _ _ _, fun j => ?_, fun i hi => ?_, fun h => ?_⟩
  · have hdiv : (4 * k.val + j.val) / 4 = k.val := by omega
    have hmod : (4 * k.val + j.val) % 4 = j.val := by omega
    show (setBufWord b.ibuf k d)[4 * k.val + j.val] = _
    rw [setBufWord_getElem, if_pos hdiv, hmod]
  · exact (setBufWord_getElem b.ibuf k d i.val i.isLt).trans (if_neg hi)
  · simp only [readReg, h]
    decide

/-! ## What a write stores and what it leaves (R54, R55, R57) -/

/-- The two bits of CRC_CTRL (R27). -/
theorem ctrlWord_getLsbD (d : Word) : ctrlWord (d.getLsbD 0) (d.getLsbD 1) = d &&& 0x3 := by
  have hand : (d &&& 0x3).toNat = d.toNat % 2 ^ 2 := Nat.and_two_pow_sub_one_eq_mod d.toNat 2
  apply BitVec.eq_of_toNat_eq
  rw [ctrlWord_toNat, hand, BitVec.getLsbD, BitVec.getLsbD, Nat.toNat_testBit, Nat.toNat_testBit]
  omega

/-- Settles O13: a write of a register reads back through the same field. -/
theorem writesStoreFieldsAndReservedBitsReadZero : Obligations.WritesStoreFieldsAndReservedBitsReadZero := by
  unfold Obligations.WritesStoreFieldsAndReservedBitsReadZero
  intro b d
  have byte : (d.extractLsb' 0 8).setWidth 32 = d &&& 0xFF := setWidth_extractLsb'_eq_and d (by norm_num)
  exact ⟨fun _ => ⟨rfl, rfl, rfl, rfl⟩, fun _ => ⟨rfl, rfl⟩, byte, byte, byte, ctrlWord_getLsbD d, byte,
    dwordLo_dwordOfWords _ _, dwordHi_dwordOfWords _ _, dwordLo_dwordOfWords _ _, dwordHi_dwordOfWords _ _,
    setWidth_extractLsb'_eq_and d (by norm_num), fun k => bufWord_setBufWord_same b.ibuf k d,
    fun r hr => writeBlock_of_ne hr d b ▸ writeBlock_err_of_ne d b hr⟩

section WriteReg

variable {r : Reg} (b : Block) (d : Word)

theorem writeReg_crcAcc_of_ne (h : r ≠ .crcAcc) : (writeReg b r d).crcAcc = b.crcAcc := by
  cases r with
  | crcAcc => exact absurd rfl h
  | _ => rfl

theorem dwordLo_value_writeReg_of_ne (h : r ≠ .valueLo) : dwordLo (writeReg b r d).value = dwordLo b.value := by
  cases r with
  | valueLo => exact absurd rfl h
  | valueHi => exact dwordLo_dwordOfWords _ _
  | _ => rfl

theorem dwordHi_value_writeReg_of_ne (h : r ≠ .valueHi) : dwordHi (writeReg b r d).value = dwordHi b.value := by
  cases r with
  | valueHi => exact absurd rfl h
  | valueLo => exact dwordHi_dwordOfWords _ _
  | _ => rfl

theorem dwordLo_key_writeReg_of_ne (h : r ≠ .keyLo) : dwordLo (writeReg b r d).key = dwordLo b.key := by
  cases r with
  | keyLo => exact absurd rfl h
  | keyHi => exact dwordLo_dwordOfWords _ _
  | _ => rfl

theorem dwordHi_key_writeReg_of_ne (h : r ≠ .keyHi) : dwordHi (writeReg b r d).key = dwordHi b.key := by
  cases r with
  | keyHi => exact absurd rfl h
  | keyLo => exact dwordHi_dwordOfWords _ _
  | _ => rfl

theorem bufWord_ibuf_writeReg_of_ne {k : Fin 4} (h : r ≠ .ibuf k) :
    bufWord (writeReg b r d).ibuf k = bufWord b.ibuf k := by
  cases r with
  | ibuf k' => exact bufWord_setBufWord_of_ne b.ibuf d fun hk => h (congrArg Reg.ibuf hk)
  | _ => rfl

@[simp] theorem writeReg_olen (r : Reg) : (writeReg b r d).olen = b.olen := by
  cases r <;> rfl

@[simp] theorem writeReg_obuf (r : Reg) : (writeReg b r d).obuf = b.obuf := by
  cases r <;> rfl

end WriteReg

/-- Settles O14, by the register that is read: the field it shows is changed by a write of that register alone. -/
theorem writeLeavesEveryOtherRegister : Obligations.WriteLeavesEveryOtherRegister := by
  unfold Obligations.WriteLeavesEveryOtherRegister
  intro b r r' d hcmd hne hout
  have hw : writeBlock r d b = writeReg b r d := writeBlock_of_ne hcmd d b
  cases r' with
  | cmd => rfl
  | status => exact congrArg statusWord (hw ▸ writeBlock_err_of_ne d b hcmd)
  | crcPoly => exact congrArg (BitVec.setWidth 32) (hw ▸ writeBlock_crcPoly_of_ne d b hne)
  | crcInit => exact congrArg (BitVec.setWidth 32) (hw ▸ writeBlock_crcInit_of_ne d b hne)
  | crcXorout => exact congrArg (BitVec.setWidth 32) (hw ▸ writeBlock_crcXorout_of_ne d b hne)
  | crcCtrl => exact congrArg (fun p => ctrlWord p.1 p.2) (hw ▸ writeBlock_crcCtrl_of_ne d b hne)
  | crcAcc => exact congrArg (BitVec.setWidth 32) (writeReg_crcAcc_of_ne b d hne)
  | crcOut => exact absurd rfl hout
  | valueLo => exact dwordLo_value_writeReg_of_ne b d hne
  | valueHi => exact dwordHi_value_writeReg_of_ne b d hne
  | keyLo => exact dwordLo_key_writeReg_of_ne b d hne
  | keyHi => exact dwordHi_key_writeReg_of_ne b d hne
  | ilen => exact congrArg (BitVec.setWidth 32) (hw ▸ writeBlock_ilen_of_ne d b hne)
  | olen => exact congrArg (BitVec.setWidth 32) (writeReg_olen b d r)
  | ibuf k => exact bufWord_ibuf_writeReg_of_ne b d hne
  | obuf k => exact congrArg (bufWord · k) (writeReg_obuf b d r)
  | reserved offset => rfl

/-! ## The window's base (R52) -/

theorem windowOffset_add (base addr n : Nat) : windowOffset (base + n) (addr + n) = windowOffset base addr := by
  have hiff : base + n ≤ addr + n ∧ addr + n < base + n + 128 ↔ base ≤ addr ∧ addr < base + 128 := by omega
  simp only [windowOffset, hiff, Nat.add_sub_add_right]

/-- A transaction and the window moved together: every case of the transaction is the same case, moved. -/
theorem stepTransaction_moveBase (n : Nat) (t : Transaction) (s : State) :
    stepTransaction { t with addr := t.addr + n } (moveBase n s) = mapNext (moveBase n) (stepTransaction t s) := by
  have hmove : windowOffset (s.coreBase + n) (t.addr + n) = windowOffset s.coreBase t.addr := windowOffset_add _ _ n
  rcases stepTransaction_cases t s with ⟨hw, h⟩ | ⟨offset, hw, ⟨ha, h⟩ | ⟨ha, hx, h⟩ | ⟨d, ha, hx, h⟩⟩
  · rw [h]
    exact stepTransaction_of_outside (hmove.trans hw)
  · rw [h]
    exact stepTransaction_of_refused (hmove.trans hw) ha
  · rw [h]
    exact stepTransaction_of_read (hmove.trans hw) ha hx
  · rw [h]
    exact stepTransaction_of_write (hmove.trans hw) ha hx

theorem stepEvent_moveBase (n : Nat) (e : BusEvent) (s : State) :
    stepEvent (moveEvent n e) (moveBase n s) = mapNext (moveBase n) (stepEvent e s) := by
  cases e with
  | transaction t => exact stepTransaction_moveBase n t s
  | resetAssert => rfl
  | resetRelease => rfl

theorem step_moveBase (n : Nat) (s : State) : step (moveBase n s) = mapNext (moveBase n) (step s) := by
  cases hp : s.pending with
  | nil =>
    have hp' : (moveBase n s).pending = [] := by simp [moveBase, hp]
    rw [step_nil hp, step_nil hp']
    rfl
  | cons e rest =>
    have hp' : (moveBase n s).pending = moveEvent n e :: rest.map (moveEvent n) := by simp [moveBase, hp]
    rw [step_cons hp, step_cons hp']
    exact stepEvent_moveBase n e { s with pending := rest }

/-- Settles O17: a step depends on CORE_BASE through the offsets of transactions alone, and a transaction without an offset
does nothing. -/
theorem coreBaseOnlyMovesTheWindow : Obligations.CoreBaseOnlyMovesTheWindow := by
  unfold Obligations.CoreBaseOnlyMovesTheWindow
  refine ⟨step_moveBase, fun s t rest hp hout => ?_⟩
  rw [inWindow_transaction, Option.isSome_eq_false_iff, Option.isNone_iff_eq_none] at hout
  rw [step_cons hp]
  exact stepTransaction_of_outside hout

/-! ## Runs (R59, R60, R61, R211) -/

/-- An event leaves the other events and CORE_BASE, and is answered where it is a transaction of the block. -/
theorem stepEvent_frame {e : BusEvent} {s t : State} (h : stepEvent e s = .next t) :
    t.pending = s.pending ∧ t.coreBase = s.coreBase ∧
      t.responses.length = s.responses.length + (inWindow s.coreBase e).toNat := by
  cases e with
  | transaction tr =>
    rw [inWindow_transaction]
    rcases stepTransaction_cases tr s with ⟨hw, h'⟩ | ⟨offset, hw, ⟨-, h'⟩ | ⟨-, -, h'⟩ | ⟨d, -, -, h'⟩⟩
    all_goals
      obtain rfl := Host.Outcome.next.inj (h'.symm.trans h)
      simp [hw]
  | resetAssert =>
    obtain rfl := Host.Outcome.next.inj h
    exact ⟨rfl, rfl, rfl⟩
  | resetRelease =>
    obtain rfl := Host.Outcome.next.inj h
    exact ⟨rfl, rfl, rfl⟩

/-- The run of all pending events: each is taken once, so each transaction of the block is answered once. -/
theorem run_pending {es : List BusEvent} {s : State} (hp : s.pending = es) :
    ∃ t, Host.Core.run core es.length s = .next t ∧ t.pending = [] ∧
      t.responses.length = s.responses.length + (es.filter (inWindow s.coreBase)).length := by
  induction es generalizing s with
  | nil => exact ⟨s, rfl, hp, rfl⟩
  | cons e rest ih =>
    obtain ⟨s', hstep⟩ := step_exists_next s
    obtain ⟨hp', hbase, hresp⟩ : s'.pending = rest ∧ s'.coreBase = s.coreBase ∧
        s'.responses.length = s.responses.length + (inWindow s.coreBase e).toNat :=
      stepEvent_frame ((step_cons hp).symm.trans hstep)
    obtain ⟨t, hrun, hdone, hlen⟩ := ih hp'
    refine ⟨t, (run_succ_of_step hstep).trans hrun, hdone, ?_⟩
    rw [hlen, hresp, hbase]
    cases hin : inWindow s.coreBase e with
    | false =>
      rw [List.filter_cons_of_neg (by simp [hin])]
      rfl
    | true =>
      rw [List.filter_cons_of_pos hin, List.length_cons, Bool.toNat_true]
      omega

/-- Settles O20, by induction on the pending events. -/
theorem runEndsWithEveryTransactionAnswered : Obligations.RunEndsWithEveryTransactionAnswered := by
  unfold Obligations.RunEndsWithEveryTransactionAnswered
  intro s
  obtain ⟨t, hrun, hdone, hlen⟩ := run_pending (s := s) rfl
  exact ⟨t, hrun, hdone, step_nil hdone, hlen⟩

theorem runEvents_of_stepEvent {e : BusEvent} {es : List BusEvent} {s t : State}
    (h : stepEvent e { s with pending := es } = .next t) : runEvents (e :: es) s = runEvents es t := by
  obtain ⟨hp, -, -⟩ := stepEvent_frame h
  exact runEvents_cons h hp

/-- The two machines agree but for their pending events and their answers: what a host can disturb for another. -/
structure SameMachine (s s' : State) : Prop where
  block : s.block = s'.block
  resetHeld : s.resetHeld = s'.resetHeld
  coreBase : s.coreBase = s'.coreBase

theorem SameMachine.withPending {s s' : State} (h : SameMachine s s') (p p' : List BusEvent) :
    SameMachine { s with pending := p } { s' with pending := p' } :=
  ⟨h.block, h.resetHeld, h.coreBase⟩

theorem SameMachine.trans {s s' s'' : State} (h : SameMachine s s') (h' : SameMachine s' s'') : SameMachine s s'' :=
  ⟨h.block.trans h'.block, h.resetHeld.trans h'.resetHeld, h.coreBase.trans h'.coreBase⟩

/-- What a transaction does to the block does not depend on the events behind it or on earlier answers. -/
theorem stepTransaction_sameMachine (tr : Transaction) {s s' : State} (hs : SameMachine s s') :
    ∃ t t', stepTransaction tr s = .next t ∧ stepTransaction tr s' = .next t' ∧ SameMachine t t' := by
  obtain ⟨hblock, hheld, hbase⟩ := hs
  have hcases := stepTransaction_cases tr s
  rw [hbase, hheld] at hcases
  rcases hcases with ⟨hw, h⟩ | ⟨offset, hw, ⟨ha, h⟩ | ⟨ha, hx, h⟩ | ⟨d, ha, hx, h⟩⟩
  · exact ⟨_, _, h, stepTransaction_of_outside hw, hblock, hheld, hbase⟩
  · exact ⟨_, _, h, stepTransaction_of_refused hw ha, hblock, hheld, hbase⟩
  · exact ⟨_, _, h, stepTransaction_of_read hw ha hx, hblock, hheld, hbase⟩
  · exact ⟨_, _, h, stepTransaction_of_write hw ha hx, congrArg (writeBlock (regAt offset) d) hblock, rfl, rfl⟩

theorem stepEvent_sameMachine (e : BusEvent) {s s' : State} (hs : SameMachine s s') :
    ∃ t t', stepEvent e s = .next t ∧ stepEvent e s' = .next t' ∧ SameMachine t t' := by
  cases e with
  | transaction tr => exact stepTransaction_sameMachine tr hs
  | resetAssert => exact ⟨_, _, rfl, rfl, rfl, rfl, hs.coreBase⟩
  | resetRelease => exact ⟨_, _, rfl, rfl, hs.block, rfl, hs.coreBase⟩

/-- A read has no side effect, admitted or not (R55). -/
theorem stepEvent_read_sameMachine {e : BusEvent} (hread : IsRead e) (s : State) :
    ∃ t, stepEvent e s = .next t ∧ SameMachine t s := by
  obtain ⟨tr, rfl, hx⟩ := hread
  rcases stepTransaction_cases tr s with ⟨-, h⟩ | ⟨offset, -, ⟨-, h⟩ | ⟨-, -, h⟩ | ⟨d, -, hwrite, -⟩⟩
  · exact ⟨_, h, rfl, rfl, rfl⟩
  · exact ⟨_, h, rfl, rfl, rfl⟩
  · exact ⟨_, h, rfl, rfl, rfl⟩
  · exact nomatch hx.symm.trans hwrite

/-- Two hosts interleaved lead to the same machine as the first alone, where the second only reads. -/
theorem runEvents_interleaving_sameMachine {p q l : List BusEvent} (hi : Interleaving p q l)
    (hq : ∀ e ∈ q, IsRead e) {s s' u v : State} (hs : SameMachine s s') (hl : runEvents l s = .next u)
    (hp : runEvents p s' = .next v) : SameMachine u v := by
  induction hi generalizing s s' with
  | nil =>
    obtain rfl := Host.Outcome.next.inj hl
    obtain rfl := Host.Outcome.next.inj hp
    exact hs.withPending [] []
  | @left p q l e _ ih =>
    obtain ⟨t, t', ht, ht', htt'⟩ := stepEvent_sameMachine e (hs.withPending l p)
    exact ih hq htt' ((runEvents_of_stepEvent ht).symm.trans hl) ((runEvents_of_stepEvent ht').symm.trans hp)
  | @right p q l e _ ih =>
    obtain ⟨hread, hq⟩ := List.forall_mem_cons.mp hq
    obtain ⟨t, ht, hts⟩ := stepEvent_read_sameMachine hread { s with pending := l }
    exact ih hq (hts.trans (hs.withPending l s'.pending)) ((runEvents_of_stepEvent ht).symm.trans hl) hp

/-- Settles O18, by induction on the interleaving. -/
theorem interleavedReaderDoesNotDisturb : Obligations.InterleavedReaderDoesNotDisturb := by
  unfold Obligations.InterleavedReaderDoesNotDisturb
  intro p q l s u v hi hq hl hp
  obtain ⟨hblock, hheld, hbase⟩ := runEvents_interleaving_sameMachine hi hq (s := s) ⟨rfl, rfl, rfl⟩ hl hp
  exact ⟨hblock, hheld, hbase⟩

end Sys2Proof.Machine

/-! PROOFS. Encoding (30_encoding.md): the words that decode and the commands they decode to, and what the pseudo-instructions
leave in the block. -/

namespace Sys2Proof

open Sys2Proof.Safety

/-! ## The opcode table (R72, R73) -/

/-- The opcodes of the table. -/
def assignedOpcodes : List Byte := [0x00, 0x10, 0x11, 0x20, 0x21, 0x22, 0x30, 0x40, 0x41, 0x42]

/-- The mask of an opcode's row: IMM8 is ignored where it is an immediate. -/
def opcodeMask (opc : Byte) : Word := if takesImm opc then 0xFFFF00FF else 0xFFFFFFFF

/-- The row of an opcode: its word with IMM8 = 0, and its mask. -/
def opcodeRow (opc : Byte) : Word × Word := (cmdWord opc 0, opcodeMask opc)

theorem tableRows_eq : tableRows = assignedOpcodes.map opcodeRow := by decide

theorem ofNat_eq_of_toNat_eq {c : Byte} {n : Nat} (h : c.toNat = n) : BitVec.ofNat 8 n = c := by
  rw [← h, BitVec.ofNat_toNat, BitVec.setWidth_eq]

section OpcodeMap

variable {opc imm : Byte} {i : Instr}

/-- The opcode map gives the command of the opcode's row, with IMM8 as its operand where it takes one. -/
theorem instrOf_eq_some (h : instrOf opc imm = some i) :
    opc ∈ assignedOpcodes ∧ opc.toNat = tableOpcode i ∧ tableImm i = if takesImm opc then imm.toNat else 0 := by
  unfold instrOf at h
  split at h
  case h_11 => exact nomatch h
  all_goals
    rename_i hopc
    obtain rfl := Option.some.inj h
    obtain rfl : BitVec.ofNat 8 _ = opc := ofNat_eq_of_toNat_eq hopc
    exact ⟨by decide, rfl, rfl⟩

theorem instrOf_exists_some (imm : Byte) (h : opc ∈ assignedOpcodes) : ∃ i, instrOf opc imm = some i := by
  simp only [assignedOpcodes, List.mem_cons, List.not_mem_nil, or_false] at h
  rcases h with rfl | rfl | rfl | rfl | rfl | rfl | rfl | rfl | rfl | rfl
  all_goals exact ⟨_, rfl⟩

/-- The fields of a command's row are those that the opcode map takes to it. -/
theorem instrOf_of_fields (hopc : opc.toNat = tableOpcode i) (himm : imm.toNat = tableImm i) :
    instrOf opc imm = some i ∧ (takesImm opc = true ∨ imm = 0) := by
  obtain rfl : BitVec.ofNat 8 (tableOpcode i) = opc := ofNat_eq_of_toNat_eq hopc
  cases i with
  | b36Enc n =>
    obtain rfl : imm.toNat = n := himm
    exact ⟨rfl, .inl rfl⟩
  | crcByte c =>
    obtain rfl : imm = c := BitVec.eq_of_toNat_eq himm
    exact ⟨rfl, .inl rfl⟩
  | _ => exact ⟨rfl, .inr (BitVec.eq_of_toNat_eq himm)⟩

end OpcodeMap

/-! ## Decoding by the fields of a word (R70, R72) -/

section Decode

variable {w : Word} {i : Instr}

/-- The checks of R72, all passed. -/
theorem decode_eq_ok_iff : decode w = .ok i ↔
    cmdRsv w = 0 ∧ instrOf (cmdOpc w) (cmdImm8 w) = some i ∧ (takesImm (cmdOpc w) = true ∨ cmdImm8 w = 0) := by
  unfold decode
  by_cases hrsv : cmdRsv w = 0
  · rw [if_neg (not_not.mpr hrsv)]
    cases instrOf (cmdOpc w) (cmdImm8 w) with
    | none => simp
    | some j =>
      by_cases himm : takesImm (cmdOpc w) = false ∧ cmdImm8 w ≠ 0
      · obtain ⟨hno, hne⟩ := himm
        simp only [hno, hne, ne_eq, not_false_eq_true, and_self, if_true, reduceCtorEq, or_self, and_false]
      · have himm' := (not_and_or.mp himm).imp eq_true_of_ne_false not_not.mp
        simp only [if_neg himm, hrsv, himm', Except.ok.injEq, Option.some.injEq, true_and, and_true]
  · rw [if_pos hrsv]
    exact ⟨nofun, fun ⟨h, _⟩ => absurd h hrsv⟩

/-- A word decodes to a command exactly when its fields are those of the command's row. -/
theorem decode_eq_ok_iff_fields : decode w = .ok i ↔
    cmdRsv w = 0 ∧ (cmdOpc w).toNat = tableOpcode i ∧ (cmdImm8 w).toNat = tableImm i := by
  rw [decode_eq_ok_iff]
  refine and_congr_right fun _ => ⟨fun ⟨hi, himm⟩ => ?_, fun ⟨hopc, himm⟩ => instrOf_of_fields hopc himm⟩
  obtain ⟨-, hopc, htable⟩ := instrOf_eq_some hi
  refine ⟨hopc, ?_⟩
  rcases himm with himm | himm
  · rw [htable, if_pos himm]
  · rw [htable, himm]
    simp

/-- The words that decode, apart from the command they decode to. -/
theorem decode_isOk_iff : (∃ i, decode w = .ok i) ↔
    cmdRsv w = 0 ∧ cmdOpc w ∈ assignedOpcodes ∧ (takesImm (cmdOpc w) = true ∨ cmdImm8 w = 0) := by
  refine ⟨fun ⟨i, h⟩ => ?_, fun ⟨hrsv, hopc, himm⟩ => ?_⟩
  · obtain ⟨hrsv, hi, himm⟩ := decode_eq_ok_iff.mp h
    exact ⟨hrsv, (instrOf_eq_some hi).1, himm⟩
  · obtain ⟨i, hi⟩ := instrOf_exists_some (cmdImm8 w) hopc
    exact ⟨i, decode_eq_ok_iff.mpr ⟨hrsv, hi, himm⟩⟩

theorem decode_isError_iff : (∃ e, decode w = .error e) ↔ ¬ ∃ i, decode w = .ok i := by
  cases decode w <;> simp

/-! ## Encoding by the fields of a word (R70, R74) -/

/-- A word is its three fields. -/
theorem word_eq_iff_fields {w w' : Word} :
    w = w' ↔ cmdRsv w = cmdRsv w' ∧ cmdOpc w = cmdOpc w' ∧ cmdImm8 w = cmdImm8 w' := by
  constructor
  · rintro rfl
    exact ⟨rfl, rfl, rfl⟩
  · rintro ⟨hrsv, hopc, himm⟩
    rw [BitVec.toNat_eq, cmdRsv_toNat, cmdRsv_toNat] at hrsv
    rw [BitVec.toNat_eq, cmdOpc_toNat, cmdOpc_toNat] at hopc
    rw [BitVec.toNat_eq, cmdImm8_toNat, cmdImm8_toNat] at himm
    rw [BitVec.toNat_eq]
    omega

/-- The fields of the word of every well-formed command are those of its row. -/
theorem encode_fields (i : Instr) : Laws.EncodeFields.Statement i :=
  match i with
  | .nop => Laws.EncodeFields.nop
  | .b36Enc n => Laws.EncodeFields.b36Enc n
  | .b36Dec => Laws.EncodeFields.b36Dec
  | .crcReset => Laws.EncodeFields.crcReset
  | .crcByte c => Laws.EncodeFields.crcByte c
  | .crcBuf => Laws.EncodeFields.crcBuf
  | .hkey => Laws.EncodeFields.hkey
  | .snMask => Laws.EncodeFields.snMask
  | .snEnc => Laws.EncodeFields.snEnc
  | .snDec => Laws.EncodeFields.snDec

theorem wf_of_tableImm_lt (h : tableImm i < 256) : i.wf = true := by
  cases i with
  | b36Enc n => exact decide_eq_true h
  | _ => rfl

/-- A word is a well-formed command's exactly when its fields are those of the command's row. -/
theorem wf_and_encode_eq_iff_fields : (i.wf = true ∧ encode i = w) ↔
    cmdRsv w = 0 ∧ (cmdOpc w).toNat = tableOpcode i ∧ (cmdImm8 w).toNat = tableImm i := by
  constructor
  · rintro ⟨hwf, rfl⟩
    exact encode_fields i hwf
  · rintro ⟨hrsv, hopc, himm⟩
    have hwf : i.wf = true := wf_of_tableImm_lt (himm ▸ (cmdImm8 w).isLt)
    obtain ⟨hrsv', hopc', himm'⟩ := encode_fields i hwf
    exact ⟨hwf, word_eq_iff_fields.mpr ⟨hrsv'.trans hrsv.symm, BitVec.eq_of_toNat_eq (hopc'.trans hopc.symm),
      BitVec.eq_of_toNat_eq (himm'.trans himm.symm)⟩⟩

end Decode

/-- Settles O3: a word's fields say which command it decodes to, and a command says which fields its word has. -/
theorem decodeAndEncodeAgree : Obligations.DecodeAndEncodeAgree := by
  unfold Obligations.DecodeAndEncodeAgree
  exact fun w i => decode_eq_ok_iff_fields.trans wf_and_encode_eq_iff_fields.symm

/-! ## The rule of R72 on the word's number -/

theorem mem_assignedOpcodes_iff (opc : Byte) : opc ∈ assignedOpcodes ↔
    opc.toNat ∈ [0x00, 0x10, 0x11, 0x20, 0x21, 0x22, 0x30, 0x40, 0x41, 0x42] :=
  (List.mem_map_of_injective (l := assignedOpcodes) fun _ _ => BitVec.eq_of_toNat_eq).symm

theorem takesImm_iff (opc : Byte) : takesImm opc = true ↔ opc.toNat ∈ [0x21, 0x10] := by
  simp [takesImm, BitVec.toNat_eq]

/-- Settles O2: the three conditions for decoding, negated and read as numbers. -/
theorem everyWordDecodesByRule : Obligations.EveryWordDecodesByRule := by
  unfold Obligations.EveryWordDecodesByRule
  intro w
  refine ⟨?_, fun i h => ?_⟩
  · rw [decode_isError_iff, decode_isOk_iff, mem_assignedOpcodes_iff, takesImm_iff, not_and_or, not_and_or, not_or,
      BitVec.toNat_eq, BitVec.toNat_eq, cmdRsv_toNat, cmdOpc_toNat, cmdImm8_toNat]
    rfl
  · obtain ⟨-, hopc, himm⟩ := decode_eq_ok_iff_fields.mp h
    exact ⟨(cmdOpc_toNat w ▸ hopc).symm, (cmdImm8_toNat w ▸ himm).symm⟩

/-! ## The rows of the table as masks (R73) -/

theorem opcodeMask_fields (opc : Byte) : cmdRsv (opcodeMask opc) = BitVec.allOnes 16 ∧
    cmdOpc (opcodeMask opc) = BitVec.allOnes 8 ∧
    cmdImm8 (opcodeMask opc) = if takesImm opc then 0 else BitVec.allOnes 8 := by
  unfold opcodeMask
  cases takesImm opc <;> decide

/-- A mask acts on each field apart. -/
theorem and_eq_iff_fields (w m v : Word) : w &&& m = v ↔
    cmdRsv w &&& cmdRsv m = cmdRsv v ∧ cmdOpc w &&& cmdOpc m = cmdOpc v ∧ cmdImm8 w &&& cmdImm8 m = cmdImm8 v := by
  rw [word_eq_iff_fields]
  unfold cmdRsv cmdOpc cmdImm8
  rw [BitVec.extractLsb'_and, BitVec.extractLsb'_and, BitVec.extractLsb'_and]

/-- The words that an opcode's row matches: RSV is 0, OPC the opcode, and IMM8 is 0 unless the mask ignores it. -/
theorem and_opcodeRow_iff (w : Word) (opc : Byte) : w &&& (opcodeRow opc).2 = (opcodeRow opc).1 ↔
    cmdRsv w = 0 ∧ cmdOpc w = opc ∧ (takesImm opc = true ∨ cmdImm8 w = 0) := by
  obtain ⟨hrsv, hopc, himm⟩ := opcodeMask_fields opc
  simp only [opcodeRow, and_eq_iff_fields, hrsv, hopc, himm, BitVec.and_allOnes, cmdRsv_cmdWord, cmdOpc_cmdWord,
    cmdImm8_cmdWord]
  cases takesImm opc with
  | true => simp
  | false => simp only [Bool.false_eq_true, if_false, BitVec.and_allOnes, false_or]

/-- Settles O4: every row is that of an assigned opcode, and the words it matches have that opcode. -/
theorem legalWordsMatchExactlyOneTableRow : Obligations.LegalWordsMatchExactlyOneTableRow := by
  unfold Obligations.LegalWordsMatchExactlyOneTableRow
  intro w
  rw [tableRows_eq, decode_isOk_iff]
  refine ⟨⟨fun ⟨hrsv, hopc, himm⟩ => ?_, ?_⟩, ?_⟩
  · exact ⟨_, List.mem_map_of_mem hopc, (and_opcodeRow_iff w _).mpr ⟨hrsv, rfl, himm⟩⟩
  · rintro ⟨row, hrow, hmatch⟩
    obtain ⟨opc, hopc, rfl⟩ := List.mem_map.mp hrow
    obtain ⟨hrsv, rfl, himm⟩ := (and_opcodeRow_iff w opc).mp hmatch
    exact ⟨hrsv, hopc, himm⟩
  · intro row hrow row' hrow' hmatch hmatch'
    obtain ⟨opc, -, rfl⟩ := List.mem_map.mp hrow
    obtain ⟨opc', -, rfl⟩ := List.mem_map.mp hrow'
    obtain ⟨-, rfl, -⟩ := (and_opcodeRow_iff w opc).mp hmatch
    obtain ⟨-, rfl, -⟩ := (and_opcodeRow_iff w opc').mp hmatch'
    rfl

/-- Settles O1: the words of R78 evaluated by the model. -/
theorem specWordsDecodeToTheirCommands : Obligations.SpecWordsDecodeToTheirCommands := by
  unfold Obligations.SpecWordsDecodeToTheirCommands
  decide

end Sys2Proof

namespace Sys2Proof.Machine

open Sys2Proof.Safety

/-! ## Runs of a host's writes (R76, R77) -/

/-- A register that is not reserved stands at its offset of the window (R51). -/
theorem regOffset_in_window {r : Reg} (h : ∀ offset, r ≠ .reserved offset) :
    regAt (regOffset r) = r ∧ regOffset r < 128 ∧ regOffset r % 4 = 0 := by
  cases r with
  | reserved offset => exact absurd rfl (h offset)
  | ibuf k => clear h; revert k; decide
  | obuf k => clear h; revert k; decide
  | _ => decide

theorem runEvents_hostWrites (ws : List (Reg × Word)) {s : State} (hheld : s.resetHeld = false)
    (hreg : ∀ w ∈ ws, ∀ offset, w.1 ≠ .reserved offset) :
    ∃ u, runEvents (ws.map fun w => writeEvent s.coreBase w.1 w.2) s = .next u ∧
      u.block = ws.foldl (fun b w => writeBlock w.1 w.2 b) s.block ∧
      u.responses = s.responses ++ List.replicate ws.length .writeDone := by
  have hrun := runEvents_writes ws [] s hheld rfl fun w hw => regOffset_in_window (hreg w hw)
  rw [List.append_nil, runEvents_nil] at hrun
  exact ⟨_, hrun, rfl, rfl⟩

/-! ## Loading registers (R77) -/

theorem extractLsb'_setWidth_of_le {n : Nat} (hn : n ≤ 32) (x : BitVec n) :
    (x.setWidth 32 : Word).extractLsb' 0 n = x := by
  ext i hi
  simp [hi, show i < 32 by omega]

theorem ctrlWord_bits (refin refout : Bool) :
    (ctrlWord refin refout).getLsbD 0 = refin ∧ (ctrlWord refin refout).getLsbD 1 = refout := by
  cases refin <;> cases refout <;> decide

theorem writeBlock_value_halves (v : DWord) (b : Block) :
    writeBlock .valueHi (dwordHi v) (writeBlock .valueLo (dwordLo v) b) = { b with value := v } := by
  simp [writeBlock_of_ne, writeReg]

theorem writeBlock_key_halves (v : DWord) (b : Block) :
    writeBlock .keyHi (dwordHi v) (writeBlock .keyLo (dwordLo v) b) = { b with key := v } := by
  simp [writeBlock_of_ne, writeReg]

theorem writeBlock_crcCtrl_ctrlWord (refin refout : Bool) (b : Block) :
    writeBlock .crcCtrl (ctrlWord refin refout) b = { b with refin := refin, refout := refout } := by
  obtain ⟨hrefin, hrefout⟩ := ctrlWord_bits refin refout
  rw [writeBlock_of_ne (by decide), writeReg, hrefin, hrefout]

/-- Settles O58: each write stores its field, and the two halves of a 64-bit operand make it up. -/
theorem loadPseudoInstructionsLoadTheirRegisters : Obligations.LoadPseudoInstructionsLoadTheirRegisters := by
  unfold Obligations.LoadPseudoInstructionsLoadTheirRegisters
  intro s v p hheld
  refine ⟨?_, ?_, ?_⟩
  · obtain ⟨u, hrun, hblock, -⟩ :=
      runEvents_hostWrites [(.valueLo, dwordLo v), (.valueHi, dwordHi v)] hheld (by simp)
    exact ⟨u, hrun, hblock.trans (writeBlock_value_halves v s.block)⟩
  · obtain ⟨u, hrun, hblock, -⟩ :=
      runEvents_hostWrites [(.keyLo, dwordLo v), (.keyHi, dwordHi v)] hheld (by simp)
    exact ⟨u, hrun, hblock.trans (writeBlock_key_halves v s.block)⟩
  · obtain ⟨u, hrun, hblock, -⟩ :=
      runEvents_hostWrites [(.crcPoly, p.poly.setWidth 32), (.crcInit, p.init.setWidth 32),
        (.crcCtrl, ctrlWord p.refin p.refout), (.crcXorout, p.xorout.setWidth 32)] hheld (by simp)
    refine ⟨u, hrun, hblock.trans ?_⟩
    have byte (c : Byte) : (c.setWidth 32 : Word).extractLsb' 0 8 = c := extractLsb'_setWidth_of_le (by norm_num) c
    simp only [List.foldl_cons, List.foldl_nil, writeBlock_crcCtrl_ctrlWord]
    simp only [writeBlock_of_ne, ne_eq, reduceCtorEq, not_false_eq_true, writeReg, byte]

/-! ## Loading the input buffer (R56, R77) -/

/-- The buffer made of four words (R56). -/
def bufOfWords (w : Fin 4 → Word) : Vector Byte 16 :=
  Vector.ofFn fun i => (w ⟨i.val / 4, by omega⟩).extractLsb' (8 * (i.val % 4)) 8

theorem setBufWord_all (buf : Vector Byte 16) (w : Fin 4 → Word) :
    setBufWord (setBufWord (setBufWord (setBufWord buf 0 (w 0)) 1 (w 1)) 2 (w 2)) 3 (w 3) = bufOfWords w := by
  refine Vector.ext fun i hi => ?_
  simp only [setBufWord_getElem, bufOfWords, Vector.getElem_ofFn]
  obtain ⟨k, hk⟩ : ∃ k : Fin 4, i / 4 = k.val := ⟨⟨i / 4, by omega⟩, rfl⟩
  simp only [hk]
  match k with
  | 0 => rfl
  | 1 => rfl
  | 2 => rfl
  | 3 => rfl

/-- The words of a buffer make up that buffer. -/
theorem bufOfWords_bufWord (buf : Vector Byte 16) : bufOfWords (bufWord buf) = buf := by
  refine Vector.ext fun i hi => ?_
  have hbyte := bufWord_extractLsb' buf ⟨i / 4, by omega⟩ ⟨i % 4, by omega⟩
  simp only [Nat.div_add_mod] at hbyte
  rw [bufOfWords, Vector.getElem_ofFn, hbyte]

/-- The writes with which a host loads the input: the words of IBUF, then ILEN. -/
def inputWrites (w : Fin 4 → Word) (len : Word) : List (Reg × Word) :=
  [(.ibuf 0, w 0), (.ibuf 1, w 1), (.ibuf 2, w 2), (.ibuf 3, w 3), (.ilen, len)]

theorem foldl_inputWrites (w : Fin 4 → Word) (len : Word) (b : Block) :
    (inputWrites w len).foldl (fun b w => writeBlock w.1 w.2 b) b =
      { b with ibuf := bufOfWords w, ilen := len.extractLsb' 0 5 } := by
  simp only [inputWrites, List.foldl_cons, List.foldl_nil, writeBlock_of_ne, ne_eq, reduceCtorEq, not_false_eq_true,
    writeReg, setBufWord_all]

theorem runEvents_inputWrites {s : State} (hheld : s.resetHeld = false) (w : Fin 4 → Word) (len : Word) :
    ∃ u, runEvents ((inputWrites w len).map fun w => writeEvent s.coreBase w.1 w.2) s = .next u ∧
      u.block = { s.block with ibuf := bufOfWords w, ilen := len.extractLsb' 0 5 } ∧
      u.responses = s.responses ++ List.replicate 5 .writeDone := by
  obtain ⟨u, hrun, hblock, hresp⟩ := runEvents_hostWrites (inputWrites w len) hheld (by simp [inputWrites])
  exact ⟨u, hrun, hblock.trans (foldl_inputWrites w len s.block), hresp⟩

/-! ## ld.ibuf (R77) -/

theorem hostLdIbuf_eq (base : Nat) (t : List Byte) : hostLdIbuf base t =
    (inputWrites (fun k => packedWord t k.val) (BitVec.ofNat 32 t.length)).map
      fun w => writeEvent base w.1 w.2 := rfl

/-- The packed words of a text are the words of the buffer that holds it, filled with zeros. -/
theorem packedWord_eq_bufWord (t : List Byte) (k : Fin 4) :
    packedWord t k.val = bufWord (Vector.ofFn fun i => t.getD i.val 0) k := by
  simp only [packedWord, bufWord, Vector.getElem_ofFn]

/-- A text of at most 16 bytes, filled with zeros, as a list. -/
theorem toList_ofFn_getD {t : List Byte} (h : t.length ≤ 16) :
    (Vector.ofFn fun i : Fin 16 => t.getD i.val 0).toList = t ++ List.replicate (16 - t.length) 0 := by
  refine List.ext_getElem (by simp; omega) fun i hi _ => ?_
  rw [Vector.getElem_toList, Vector.getElem_ofFn]
  by_cases hlt : i < t.length
  · rw [List.getD_eq_getElem _ _ hlt, List.getElem_append_left hlt]
  · rw [List.getD_eq_default _ _ (not_lt.mp hlt), List.getElem_append_right (not_lt.mp hlt), List.getElem_replicate]

/-- Settles O57: the packed words are those of the zero-filled text, and ILEN holds a length of at most 16. -/
theorem ldIbufLoadsTheText : Obligations.LdIbufLoadsTheText := by
  unfold Obligations.LdIbufLoadsTheText
  intro s t hheld hlen
  obtain ⟨u, hrun, hblock, hresp⟩ :=
    runEvents_inputWrites hheld (fun k => packedWord t k.val) (BitVec.ofNat 32 t.length)
  rw [funext (packedWord_eq_bufWord t), bufOfWords_bufWord] at hblock
  refine ⟨u, hostLdIbuf_eq s.coreBase t ▸ hrun, ?_, ?_, ?_, hresp⟩
  · rw [hblock]
  · rw [hblock, BitVec.extractLsb'_toNat, BitVec.toNat_ofNat]
    omega
  · rw [hblock]
    exact toList_ofFn_getD hlen

/-! ## rd.obuf and mv.obuf.ibuf (R77) -/

/-- The registers that `rd.obuf` reads. -/
def outputRegs : List Reg := [.olen, .obuf 0, .obuf 1, .obuf 2, .obuf 3]

theorem hostMvObufIbuf_eq (base : Nat) (len : Word) (w : Fin 4 → Word) :
    hostMvObufIbuf base len (w 0) (w 1) (w 2) (w 3) =
      outputRegs.map (readEvent base) ++ (inputWrites w len).map fun w => writeEvent base w.1 w.2 := rfl

/-- Settles O59: the reads leave the block, and the words they are answered make up OBUF. -/
theorem mvObufIbufCopiesTheOutput : Obligations.MvObufIbufCopiesTheOutput := by
  unfold Obligations.MvObufIbufCopiesTheOutput
  intro s hheld
  have hreg : ∀ r ∈ outputRegs, ∀ offset, r ≠ .reserved offset := by simp [outputRegs]
  obtain ⟨u, hrun, hblock, hresp⟩ := runEvents_inputWrites
    (s := { s with responses := s.responses ++ outputRegs.map fun r => .readData (readReg s.block r) })
    hheld (bufWord s.block.obuf) (s.block.olen.setWidth 32)
  rw [← runEvents_reads outputRegs _ s hheld rfl fun r hr => regOffset_in_window (hreg r hr),
    ← hostMvObufIbuf_eq] at hrun
  rw [bufOfWords_bufWord, extractLsb'_setWidth_of_le (by norm_num)] at hblock
  exact ⟨u, hrun, hblock, hresp⟩

end Sys2Proof.Machine

/-! PROOFS. Base 36 (40_base36.md): the alphabet, the texts that encoding gives, and the commands B36_ENC and B36_DEC. -/

namespace Sys2Proof.Machine

open Sys2Proof.Safety

/-! ## The alphabet (R100) -/

/-- The alphabet is where `index` is defined. -/
theorem mem_alphabet_iff (c : Byte) :
    c ∈ alphabet ↔ (0x30 ≤ c.toNat ∧ c.toNat ≤ 0x39) ∨ (0x41 ≤ c.toNat ∧ c.toNat ≤ 0x5A) := by
  rw [← not_iff_not, ← b36Index_eq_none, b36Index]
  split_ifs with hdigit hletter
  · simp [hdigit]
  · simp [hletter]
  · simp [hdigit, hletter]

/-- Settles O31: `digit` runs through the alphabet, and `index` is the place in it. -/
theorem alphabetIsDigitsThenUpperCase : Obligations.AlphabetIsDigitsThenUpperCase := by
  unfold Obligations.AlphabetIsDigitsThenUpperCase
  refine ⟨rfl, by decide, fun i hi => ?_, fun c => ⟨b36Index_of_mem, b36Index_eq_none.mpr⟩, mem_alphabet_iff⟩
  rw [b36Index_of_mem (b36Digit_mem hi), idxOf_b36Digit hi]

/-! ## The text of a number (R101) -/

/-- `'0'` alone has the value 0. -/
theorem idxOf_pos_of_ne_zero {c : Byte} (h : c ∈ alphabet) (hne : c ≠ 0x30) : 0 < alphabet.idxOf c := by
  rw [Nat.pos_iff_ne_zero]
  intro hzero
  exact hne (by rw [← b36Digit_idxOf h, hzero]; rfl)

/-- A text without a leading zero spells a number that needs all of its digits. -/
theorem pow_le_textValue {c : Byte} {t : List Byte} (h : IsText (c :: t)) (hne : c ≠ 0x30) :
    36 ^ t.length ≤ textValue (c :: t) := by
  have hpos : 0 < alphabet.idxOf c := idxOf_pos_of_ne_zero (h c List.mem_cons_self) hne
  calc 36 ^ t.length ≤ alphabet.idxOf c * 36 ^ t.length := Nat.le_mul_of_pos_left _ hpos
    _ ≤ textValue (c :: t) := textValue_cons c t ▸ Nat.le_add_right _ _

/-- A text without needless leading zeros is no longer than the text that encoding gives. -/
theorem length_le_b36Encode {t : List Byte} {md : Nat} (ht : IsText t) (hzero : md < t.length → t.head? ≠ some 0x30) :
    t.length ≤ (b36Encode (textValue t) md).length := by
  obtain ⟨hmd, hlt⟩ := (b36Encode_length_le (textValue t) md _).mp le_rfl
  by_cases hlen : md < t.length
  · cases t with
    | nil => exact Nat.zero_le _
    | cons c t =>
      have hne : c ≠ 0x30 := by simpa using hzero hlen
      exact (Nat.pow_lt_pow_iff_right (by norm_num)).mp ((pow_le_textValue ht hne).trans_lt hlt)
  · exact (not_lt.mp hlen).trans hmd

/-- The text of a number is its only spelling of at least `md` bytes without needless leading zeros. -/
theorem eq_b36Encode {t : List Byte} {md : Nat} (ht : IsText t) (hmd : md ≤ t.length)
    (hzero : md < t.length → t.head? ≠ some 0x30) : t = b36Encode (textValue t) md :=
  have hlen : t.length = (b36Encode (textValue t) md).length :=
    le_antisymm (length_le_b36Encode ht hzero) ((b36Encode_length_le _ md _).mpr ⟨hmd, textValue_lt ht⟩)
  textValue_inj ht (b36Encode_isText _ md) hlen (textValue_b36Encode _ md).symm

/-- Settles O32: two spellings of one number with one length are the same text, and the conditions fix the length. -/
theorem encodedTextIsTheShortestPaddedSpelling : Obligations.EncodedTextIsTheShortestPaddedSpelling := by
  unfold Obligations.EncodedTextIsTheShortestPaddedSpelling
  refine fun v md => ⟨b36Encode_isText v md, textValue_b36Encode v md, b36Encode_length_le v md, ?_⟩
  rintro t ht rfl hmd hzero
  exact eq_b36Encode ht hmd hzero

theorem b36Encode_zero (md : Nat) : b36Encode 0 md = List.replicate md 0x30 := by
  have h := b36Encode_textValue (isText_replicate md)
  rwa [textValue_replicate, List.length_replicate] at h

/-- Settles O33: the text of `v` is a text of the alphabet that spells `v`, and decoding gives what a text spells. -/
theorem decodingUndoesEncoding : Obligations.DecodingUndoesEncoding := by
  unfold Obligations.DecodingUndoesEncoding
  refine ⟨fun v md => ?_, b36Encode_zero 3, 7, rfl, rfl⟩
  rw [b36Decode_of_text (b36Encode_isText v md), textValue_b36Encode]

/-! ## A command whose rule's result is known (R172) -/

section Exec

variable {i : Instr} {s : State}

theorem exec_of_ok {b : Block} (h : commandResult i s.block = .ok b) :
    exec i s = .next { s with block := commandOk b } := by
  rw [exec_eq_next, h, finishBlock_ok]

theorem exec_of_error {e : ErrorKind} (h : commandResult i s.block = .error e) :
    exec i s = .next { s with block := commandFail s.block e } := by
  rw [exec_eq_next, h, finishBlock_error]

end Exec

/-! ## B36_ENC (R104) -/

/-- A 64-bit number needs at most 13 digits, so the padding alone can pass the 16 bytes of OBUF. -/
theorem b36Encode_dword_length_le (v : DWord) (md : Nat) : (b36Encode v.toNat md).length ≤ 16 ↔ md ≤ 16 := by
  have hv : v.toNat < 36 ^ 16 := v.isLt.trans (by norm_num)
  rw [b36Encode_length_le, and_iff_left hv]

theorem b36EncResult_of_le (b : Block) {md : Nat} (h : md ≤ 16) :
    b36EncResult md b = .ok (setObuf b (b36Encode b.value.toNat md)) :=
  if_neg (not_lt.mpr ((b36Encode_dword_length_le b.value md).mpr h))

theorem b36EncResult_of_gt (b : Block) {md : Nat} (h : 16 < md) : b36EncResult md b = .error .range :=
  if_pos (lt_of_not_ge fun hlen => absurd ((b36Encode_dword_length_le b.value md).mp hlen) (not_le.mpr h))

theorem encode_b36Enc_toNat {md : Nat} (h : md < 256) : (encode (.b36Enc md)).toNat = 0x10 + 256 * md := by
  obtain ⟨hrsv, hopc, himm⟩ := encode_fields (.b36Enc md) (decide_eq_true h)
  have rsv : (encode (.b36Enc md)).toNat / 65536 = 0 := (cmdRsv_toNat _).symm.trans (congrArg BitVec.toNat hrsv)
  have opc : (encode (.b36Enc md)).toNat % 256 = 0x10 := (cmdOpc_toNat _).symm.trans hopc
  have imm : (encode (.b36Enc md)).toNat / 256 % 256 = md := (cmdImm8_toNat _).symm.trans himm
  omega

/-- Settles O34: the word by its fields, the texts as spellings of their numbers, and the command by the length of its
text. -/
theorem b36EncWritesTheTextOfValue : Obligations.B36EncWritesTheTextOfValue := by
  unfold Obligations.B36EncWritesTheTextOfValue
  refine ⟨fun md => encode_b36Enc_toNat, b36Encode_zero 0, b36Encode_zero 16, ?_, ?_,
    fun s md => ⟨fun h => ?_, fun h => ?_⟩⟩
  · exact (eq_b36Encode (t := [0x5A]) (by unfold IsText; decide) (by decide) (by decide)).symm
  · exact (eq_b36Encode (t := [0x33, 0x57, 0x35, 0x45, 0x31, 0x31, 0x32, 0x36, 0x34, 0x53, 0x47, 0x53, 0x46])
      (by unfold IsText; decide) (by decide) (by decide)).symm
  · exact ⟨(b36Encode_dword_length_le s.block.value md).mpr h,
      exec_of_ok (i := .b36Enc md) (b36EncResult_of_le s.block h)⟩
  · exact exec_of_error (i := .b36Enc md) (b36EncResult_of_gt s.block h)

/-! ## B36_DEC (R105) -/

section DecText

variable {t : List Byte} (b : Block)

theorem b36DecText_of_not_text (h : ¬ IsText t) : b36DecText b t = .error .digit := by
  rw [b36DecText, b36Decode_of_not_text h]

theorem b36DecText_of_text (h : IsText t) :
    b36DecText b t =
      if textValue t ≥ 2 ^ 64 then .error .range else .ok { b with value := BitVec.ofNat 64 (textValue t) } := by
  rw [b36DecText, b36Decode_of_text h]

theorem b36DecText_of_ge (h : IsText t) (hge : 2 ^ 64 ≤ textValue t) : b36DecText b t = .error .range := by
  rw [b36DecText_of_text b h, if_pos hge]

theorem b36DecText_of_eq_toNat {v : DWord} (h : IsText t) (hv : textValue t = v.toNat) :
    b36DecText b t = .ok { b with value := v } := by
  rw [b36DecText_of_text b h, hv, if_neg (not_le.mpr v.isLt), BitVec.ofNat_toNat, BitVec.setWidth_eq]

end DecText

theorem commandResult_b36Dec_of_gt {b : Block} (h : 16 < b.ilen.toNat) :
    commandResult .b36Dec b = .error .range := by
  rw [commandResult, genericInput_of_gt h, withInput_error]

theorem commandResult_b36Dec_of_le {b : Block} (h : b.ilen.toNat ≤ 16) :
    commandResult .b36Dec b = b36DecText b (ibufBytes b) := by
  rw [commandResult, genericInput_of_le h, withInput_ok]

/-- Settles O35: the length of the input, then its bytes, then its value decide what the command does. -/
theorem b36DecLoadsValueOrReportsTheFirstError : Obligations.B36DecLoadsValueOrReportsTheFirstError := by
  unfold Obligations.B36DecLoadsValueOrReportsTheFirstError
  refine ⟨by decide, by decide, by decide, by decide, by decide, by decide, fun s =>
    ⟨fun hlen => ?_, fun hlen htext => ?_, fun hlen htext hge => ?_, fun v hlen htext hv => ?_⟩⟩
  · exact exec_of_error (commandResult_b36Dec_of_gt hlen)
  · exact exec_of_error ((commandResult_b36Dec_of_le hlen).trans (b36DecText_of_not_text s.block htext))
  · exact exec_of_error ((commandResult_b36Dec_of_le hlen).trans (b36DecText_of_ge s.block htext hge))
  · exact exec_of_ok ((commandResult_b36Dec_of_le hlen).trans (b36DecText_of_eq_toNat s.block htext hv))

end Sys2Proof.Machine

/-! PROOFS. CRC-8 (41_crc8.md): bit reversal, the loop of R122 against its two other forms, and the commands CRC_RESET, CRC_BYTE
and CRC_BUF. -/

namespace Sys2Proof.Machine

open Sys2Proof.Safety

/-! ## Bit reversal (R121) -/

@[simp] theorem rev8_rev8 (c : Byte) : rev8 (rev8 c) = c := by
  refine BitVec.eq_of_getLsbD_eq fun i hi => ?_
  rw [rev8_getLsbD _ hi, rev8_getLsbD _ (by omega), Nat.sub_sub_self (by omega)]

@[simp] theorem rev8_xor (c d : Byte) : rev8 (c ^^^ d) = rev8 c ^^^ rev8 d := by
  refine BitVec.eq_of_getLsbD_eq fun i hi => ?_
  simp only [rev8_getLsbD _ hi, BitVec.getLsbD_xor]

/-- Reversal turns the shift to the left into the shift to the right. -/
theorem rev8_shiftLeft_one (c : Byte) : rev8 (c <<< 1) = rev8 c >>> 1 := by
  refine BitVec.eq_of_getLsbD_eq fun i hi => ?_
  rw [rev8_getLsbD _ hi, BitVec.getLsbD_shiftLeft, BitVec.getLsbD_ushiftRight]
  obtain rfl | hlt : i = 7 ∨ 1 + i < 8 := by omega
  · simp
  · rw [rev8_getLsbD _ hlt, show 7 - (1 + i) = 7 - i - 1 by omega]
    simp [show 7 - i < 8 by omega, show ¬ 7 - i < 1 by omega]

/-- Settles O36: `rev8` bit by bit, and its two values. -/
theorem rev8ReversesTheBits : Obligations.Rev8ReversesTheBits := by
  unfold Obligations.Rev8ReversesTheBits
  exact ⟨fun c _ => rev8_getLsbD c, rev8_rev8, rfl, rfl⟩

/-! ## The right-shifting engine (R130) -/

/-- A step of the loop of R122, seen through the reversal: it tests bit 0 and shifts to the right. -/
theorem rev8_crc8Shift (poly s : Byte) : rev8 (crc8Shift poly s) =
    if (rev8 s).getLsbD 0 then (rev8 s >>> 1) ^^^ rev8 poly else rev8 s >>> 1 := by
  rw [crc8Shift, apply_ite rev8, rev8_xor, rev8_shiftLeft_one, rev8_getLsbD s (by norm_num)]

theorem rev8_crc8Shifts (poly : Byte) (n : Nat) (s : Byte) :
    rev8 (crc8Shifts poly n s) = crcRightShifts (rev8 poly) n (rev8 s) := by
  induction n generalizing s with
  | zero => rfl
  | succ n ih => rw [crc8Shifts, ih, rev8_crc8Shift, crcRightShifts]

theorem rev8_crc8Update (s c poly : Byte) :
    rev8 (crc8Update s c poly true) = crcRightShifts (rev8 poly) 8 (rev8 s ^^^ c) := by
  rw [crc8Update, if_pos rfl, rev8_crc8Shifts, rev8_xor, rev8_rev8]

theorem rev8_crc8UpdateAll (s : Byte) (t : List Byte) (poly : Byte) :
    rev8 (crc8UpdateAll s t poly true) =
      t.foldl (fun acc c => crcRightShifts (rev8 poly) 8 (acc ^^^ c)) (rev8 s) := by
  induction t generalizing s with
  | nil => rfl
  | cons c t ih => rw [List.foldl_cons, ← rev8_crc8Update]; exact ih _

/-- Settles O43: reversal carries each step of the engine, hence each byte and the whole text, to the right-shifting one. -/
theorem reflectedEngineIsTheRightShiftingCrc : Obligations.ReflectedEngineIsTheRightShiftingCrc := by
  unfold Obligations.ReflectedEngineIsTheRightShiftingCrc
  intro s poly xorout t
  rw [crc8Finalize, if_pos rfl, rev8_crc8UpdateAll]

/-! ## Masking once per byte (R122) -/

/-- A step of the source's loop does to the low 8 bits what the step of R122 does. -/
theorem ofNat_crcNatStep (poly : Byte) (m : Nat) :
    BitVec.ofNat 8 (if m.testBit 7 then (m <<< 1) ^^^ poly.toNat else m <<< 1) =
      crc8Shift poly (BitVec.ofNat 8 m) := by
  have hshift : BitVec.ofNat 8 (m <<< 1) = BitVec.ofNat 8 m <<< 1 := by
    refine BitVec.eq_of_toNat_eq ?_
    simp [Nat.shiftLeft_eq]
  rw [crc8Shift, apply_ite (BitVec.ofNat 8), BitVec.ofNat_xor, hshift, BitVec.ofNat_toNat, BitVec.setWidth_eq,
    BitVec.getLsbD_ofNat]
  simp

/-- The bits that pass above bit 7 never come back into the low 8 bits. -/
theorem ofNat_crcNatLoop (poly : Byte) (n m : Nat) :
    BitVec.ofNat 8 (crcNatLoop poly.toNat n m) = crc8Shifts poly n (BitVec.ofNat 8 m) := by
  induction n generalizing m with
  | zero => rfl
  | succ n ih => rw [crcNatLoop, ih, ofNat_crcNatStep, crc8Shifts]

theorem crcNatLoop_mod (poly : Byte) (n : Nat) (s : Byte) :
    crcNatLoop poly.toNat n s.toNat % 256 = (crc8Shifts poly n s).toNat := by
  have h := congrArg BitVec.toNat (ofNat_crcNatLoop poly n s.toNat)
  rwa [BitVec.toNat_ofNat, BitVec.ofNat_toNat, BitVec.setWidth_eq] at h

/-- Settles O37: the low 8 bits of the source's loop are the loop of R122 at every step. -/
theorem maskingOncePerByteGivesTheSameCrc : Obligations.MaskingOncePerByteGivesTheSameCrc := by
  unfold Obligations.MaskingOncePerByteGivesTheSameCrc
  intro s c poly refin
  rw [← BitVec.toNat_xor, crcNatLoop_mod, crc8Update]

/-! ## Processing texts (R124, R128) -/

theorem crc8UpdateAll_append (s poly : Byte) (t u : List Byte) (refin : Bool) :
    crc8UpdateAll s (t ++ u) poly refin = crc8UpdateAll (crc8UpdateAll s t poly refin) u poly refin :=
  List.foldl_append

/-- The CDMA2000 set reverses nothing and XORs with 0, so the result is the state itself. -/
theorem crc8Cdma2000_eq (t : List Byte) : crc8Cdma2000 t = crc8UpdateAll 0xFF t 0x9B false :=
  BitVec.xor_zero

/-- The state after each byte of the check string (R124). -/
theorem crc8UpdateAll_check_prefixes :
    (List.range 9).map (fun n =>
      crc8UpdateAll 0xFF ([0x31, 0x32, 0x33, 0x34, 0x35, 0x36, 0x37, 0x38, 0x39].take (n + 1)) 0x9B false) =
    [0xB6, 0xCA, 0x17, 0x52, 0x5B, 0xEF, 0xE8, 0xF1, 0xDA] := by
  decide

/-- Settles O38: the definitions of R124, the states of the engine over the check string, and the last of them. -/
theorem crcCheckValues : Obligations.CrcCheckValues := by
  unfold Obligations.CrcCheckValues
  refine ⟨fun _ _ => rfl, fun _ => rfl, ?_, crc8UpdateAll_check_prefixes, crc8Cdma2000_eq []⟩
  rw [crc8Cdma2000_eq]
  exact Option.some.inj (congrArg (·[8]?) crc8UpdateAll_check_prefixes)

/-! ## CRC_RESET and CRC_BYTE (R125, R126) -/

/-- Settles O39: the command's rule reads CRC_INIT alone, and it cannot fail. -/
theorem crcResetLoadsTheInitialValue : Obligations.CrcResetLoadsTheInitialValue := by
  unfold Obligations.CrcResetLoadsTheInitialValue
  exact ⟨rfl, fun s => exec_of_ok (i := .crcReset) (s := s) rfl⟩

/-- The word of a well-formed command as a number (R70, R74). -/
theorem encode_toNat {i : Instr} (h : i.wf = true) : (encode i).toNat = tableOpcode i + 256 * tableImm i := by
  obtain ⟨hrsv, hopc, himm⟩ := encode_fields i h
  rw [cmdOpc_toNat] at hopc
  rw [cmdImm8_toNat] at himm
  have rsv : (encode i).toNat / 65536 = 0 := (cmdRsv_toNat _).symm.trans (congrArg BitVec.toNat hrsv)
  omega

/-- With the polynomial 0 the loop only shifts. -/
theorem crc8Shifts_zero_poly (n : Nat) (s : Byte) : crc8Shifts 0 n s = s <<< n := by
  induction n generalizing s with
  | zero => simp [crc8Shifts]
  | succ n ih =>
    have hstep : crc8Shift 0 s = s <<< 1 := by simp [crc8Shift]
    rw [crc8Shifts, ih, hstep, ← BitVec.shiftLeft_add, Nat.add_comm]

/-- The polynomial acts only where a bit is shifted out, so the state 0 stays. -/
theorem crc8Shifts_zero_state (poly : Byte) (n : Nat) : crc8Shifts poly n 0 = 0 := by
  induction n with
  | zero => rfl
  | succ n ih => exact ih

theorem crc8Update_zero_poly (s c : Byte) (refin : Bool) : crc8Update s c 0 refin = 0 := by
  rw [crc8Update, crc8Shifts_zero_poly]
  exact BitVec.shiftLeft_eq_zero le_rfl

theorem crc8Update_zero_zero (poly : Byte) (refin : Bool) : crc8Update 0 0 poly refin = 0 := by
  have hin : (if refin then rev8 0 else 0 : Byte) = 0 := ite_eq_right_iff.mpr fun _ => rfl
  rw [crc8Update, hin, BitVec.xor_self]
  exact crc8Shifts_zero_state poly 8

/-- CRC_BYTE processes the text of its one byte. -/
theorem exec_crcByte (c : Byte) (s : State) :
    exec (.crcByte c) s = .next { s with block := commandOk (crcProcess s.block [c]) } :=
  exec_of_ok rfl

/-- Settles O40: the command in its frame, its word by its fields, and the corner cases of the loop. -/
theorem crcByteProcessesOneByte : Obligations.CrcByteProcessesOneByte := by
  unfold Obligations.CrcByteProcessesOneByte
  exact ⟨fun s c => exec_crcByte c s, fun c => encode_toNat (i := .crcByte c) rfl, crc8Update_zero_poly,
    crc8Update_zero_zero, by decide, by decide, by decide⟩

/-! ## CRC_BUF (R127, R128) -/

theorem exec_crcBuf_of_gt {s : State} (h : 16 < s.block.ilen.toNat) :
    exec .crcBuf s = .next { s with block := commandFail s.block .range } :=
  exec_of_error (by rw [commandResult, genericInput_of_gt h, withInput_error])

theorem exec_crcBuf_of_le {s : State} (h : s.block.ilen.toNat ≤ 16) :
    exec .crcBuf s = .next { s with block := commandOk (crcProcess s.block (ibufBytes s.block)) } :=
  exec_of_ok (by rw [commandResult, genericInput_of_le h, withInput_ok])

/-- Settles O41: the length of the input decides, and its bytes are those of IBUF below ILEN. -/
theorem crcBufProcessesTheInputBytes : Obligations.CrcBufProcessesTheInputBytes := by
  unfold Obligations.CrcBufProcessesTheInputBytes
  exact ⟨rfl, fun s => ⟨exec_crcBuf_of_gt, exec_crcBuf_of_le⟩⟩

theorem commandOk_of_err_eq_zero {b : Block} (h : b.err = 0) : commandOk b = b := by
  rw [commandOk, errNone, ← h]

/-- One CRC_BYTE for each byte of a text, from a state without an error, processes the text. -/
theorem feedBytes_eq (t : List Byte) {s : State} (h : s.block.err = 0) :
    feedBytes t s = .next { s with block := commandOk (crcProcess s.block t) } := by
  induction t generalizing s with
  | nil => exact congrArg (fun b => Host.Outcome.next { s with block := b }) (commandOk_of_err_eq_zero h).symm
  | cons c t ih =>
    rw [feedBytes, exec_crcByte]
    exact ih rfl

/-- Settles O42: the fold over an appended text, and the commands over the input's bytes. -/
theorem crcAccumulatesOverAnySplit : Obligations.CrcAccumulatesOverAnySplit := by
  unfold Obligations.CrcAccumulatesOverAnySplit
  refine ⟨crc8UpdateAll_append, fun s hlen herr => ?_⟩
  rw [exec_crcBuf_of_le hlen]
  exact feedBytes_eq _ herr

end Sys2Proof.Machine

/-! PROOFS. The hash-to-key function (42_hashkey.md): the bytes of the digest, the key read from them, published keys, and the
command HKEY. -/

namespace Sys2Proof.Machine

/-! ## The digest and the key (R140, R141) -/

@[simp] theorem shaBytes_length (w : Word) : (shaBytes w).length = 4 := rfl

/-- The digest is eight words of four bytes, whatever the blocks before it gave. -/
@[simp] theorem sha256_length (t : List Byte) : (sha256 t).length = 32 := by
  simp only [sha256, List.length_append, shaBytes_length]

/-- R141: the first byte weighs most, within each word of the key and between its words. -/
theorem keyOfDigest_toNat {d : List Byte} (h : 8 ≤ d.length) :
    (keyOfDigest d).toNat = (d.take 8).foldl (fun n c => n * 256 + c.toNat) 0 := by
  match d, h with
  | c0 :: c1 :: c2 :: c3 :: c4 :: c5 :: c6 :: c7 :: rest, _ =>
    have hkey : (keyOfDigest (c0 :: c1 :: c2 :: c3 :: c4 :: c5 :: c6 :: c7 :: rest)).toNat =
        (wordOfBytes c7 c6 c5 c4).toNat + (wordOfBytes c3 c2 c1 c0).toNat * 2 ^ 32 := dwordOfWords_toNat _ _
    rw [hkey, wordOfBytes_toNat, wordOfBytes_toNat]
    simp only [List.take_succ_cons, List.take_zero, List.foldl_cons, List.foldl_nil]
    omega

/-- Settles O44: the digest has more than the 8 bytes that the key is read from. -/
theorem hashKeyIsTheBigEndianDigestPrefix : Obligations.HashKeyIsTheBigEndianDigestPrefix := by
  unfold Obligations.HashKeyIsTheBigEndianDigestPrefix
  exact fun t => ⟨sha256_length t, keyOfDigest_toNat (by rw [sha256_length]; decide)⟩

/-! ## Published keys (R142, R143) -/

theorem hashKey_nil : hashKey [] = 0xE3B0C44298FC1C14 := by decide +kernel

/-- Settles O45: SHA-256 of each text fills one block, which the kernel evaluates. -/
theorem hashKeyMatchesPublishedKeys : Obligations.HashKeyMatchesPublishedKeys := by
  unfold Obligations.HashKeyMatchesPublishedKeys
  exact ⟨hashKey_nil, by decide +kernel, by decide +kernel, by decide +kernel⟩

/-! ## HKEY (R143) -/

theorem exec_hkey_of_gt {s : State} (h : 16 < s.block.ilen.toNat) :
    exec .hkey s = .next { s with block := commandFail s.block .range } :=
  exec_of_error (by rw [commandResult, genericInput_of_gt h, withInput_error])

theorem exec_hkey_of_le {s : State} (h : s.block.ilen.toNat ≤ 16) :
    exec .hkey s = .next { s with block := commandOk { s.block with key := hashKey (ibufBytes s.block) } } :=
  exec_of_ok (by rw [commandResult, genericInput_of_le h, withInput_ok])

/-- Settles O46: the length of the input decides, and its bytes are those of IBUF below ILEN. -/
theorem hkeyLoadsTheKeyOfTheInput : Obligations.HkeyLoadsTheKeyOfTheInput := by
  unfold Obligations.HkeyLoadsTheKeyOfTheInput
  exact ⟨rfl, hashKey_nil, by decide +kernel, fun s => ⟨exec_hkey_of_gt, exec_hkey_of_le⟩⟩

end Sys2Proof.Machine

/-! PROOFS. The serial-number masker-verifier (43_serial.md): the mask, what encoding and decoding answer in the order of their
checks, the round trip between them, and the commands SN_MASK, SN_ENC and SN_DEC. -/

namespace Sys2Proof.Machine

open Sys2Proof.Config Sys2Proof.Safety

/-! ## The mask (R150) -/

theorem m50_toNat : m50.toNat = 2 ^ 50 - 1 := rfl

theorem mask50_testBit (x : Nat) (key : DWord) (i : Nat) :
    (mask50 x key).testBit i = if i < 50 then (x.testBit i).xor (key.getLsbD i) else x.testBit i := by
  rw [mask50, Nat.testBit_xor, BitVec.toNat_and, Nat.testBit_and, m50_toNat, Nat.testBit_two_pow_sub_one,
    BitVec.testBit_toNat]
  split
  next h => simp [h]
  next h => simp [h]

@[simp] theorem mask50_mask50 (x : Nat) (key : DWord) : mask50 (mask50 x key) key = x := by
  rw [mask50, mask50, Nat.xor_assoc, Nat.xor_self, Nat.xor_zero]

/-- Settles O47: the mask is an XOR with the key's low 50 bits, and XOR with one number is an involution. -/
theorem maskIsAFiftyBitInvolution : Obligations.MaskIsAFiftyBitInvolution := by
  unfold Obligations.MaskIsAFiftyBitInvolution
  exact fun x key => ⟨mask50_testBit x key, mask50_mask50 x key⟩

/-! ## SN_MASK (R157) -/

/-- The mask on 64-bit words, as SN_MASK has it, is the mask on naturals. -/
theorem dwordMask_toNat (v key : DWord) : (v ^^^ (key &&& m50)).toNat = mask50 v.toNat key := BitVec.toNat_xor ..

theorem dwordMask_dwordMask (v key : DWord) : (v ^^^ (key &&& m50)) ^^^ (key &&& m50) = v := by
  rw [BitVec.xor_assoc, BitVec.xor_self, BitVec.xor_zero]

theorem exec_snMask (s : State) : exec .snMask s =
    .next { s with block := commandOk { s.block with value := s.block.value ^^^ (s.block.key &&& m50) } } :=
  exec_of_ok (i := .snMask) rfl

/-- Settles O48: the command's value is the mask of VALUE, whose bits and whose involution are known. -/
theorem snMaskMasksValueWithTheKey : Obligations.SnMaskMasksValueWithTheKey := by
  unfold Obligations.SnMaskMasksValueWithTheKey
  refine ⟨rfl, by decide, fun s => ⟨_, dwordMask_toNat s.block.value s.block.key, fun i _ => ?_, exec_snMask s, ?_⟩⟩
  · rw [← BitVec.testBit_toNat, dwordMask_toNat, mask50_testBit, BitVec.testBit_toNat]
  · rw [exec_snMask, dwordMask_dwordMask]
    rfl

/-! ## The range of a masked value (R160) -/

theorem textValue_lt_of_length {t : List Byte} {n : Nat} (h : IsText t) (hlen : t.length = n) :
    textValue t < 36 ^ n :=
  hlen ▸ textValue_lt h

/-- Bits 50 and up pass through the mask. -/
theorem mask50_div (x : Nat) (key : DWord) : mask50 x key / 2 ^ 50 = x / 2 ^ 50 := by
  refine Nat.eq_of_testBit_eq fun i => ?_
  rw [Nat.testBit_div_two_pow, Nat.testBit_div_two_pow, mask50_testBit, if_neg (by omega)]

/-- Settles O54: the mask keeps the value's multiple of 2^50, and 36^10 lies between 3 * 2^50 and 2^52. -/
theorem onlyDeviceNumbersFromX9ALTVZ9XCCanOverflow : Obligations.OnlyDeviceNumbersFromX9ALTVZ9XCCanOverflow := by
  unfold Obligations.OnlyDeviceNumbersFromX9ALTVZ9XCCanOverflow
  refine ⟨fun t key htext hlen => ?_, by decide, by decide⟩
  have hlt : textValue t < 36 ^ 10 := textValue_lt_of_length htext hlen
  have hdiv := mask50_div (textValue t) key
  omega

/-! ## What encoding answers (R153) -/

/-- The last bytes of a text are all that is left after the first ones. -/
theorem take_drop_of_length {t : List Byte} {m n : Nat} (h : t.length = m + n) : (t.drop m).take n = t.drop m :=
  List.take_of_length_le (by rw [List.length_drop, h, Nat.add_sub_cancel_left])

theorem b36Encode_textValue_of_length {t : List Byte} {n : Nat} (h : IsText t) (hlen : t.length = n) :
    b36Encode (textValue t) n = t :=
  hlen ▸ b36Encode_textValue h

/-- A plain identifier is the candidate that decoding builds from its device number (R154, step 6). -/
theorem candidate_textValue {p : List Byte} (hlen : p.length = 12) (hpre : p.take 2 = rbPrefix)
    (htext : IsText (p.drop 2)) : rbPrefix ++ b36Encode (textValue (p.drop 2)) 10 = p := by
  rw [b36Encode_textValue_of_length htext (by rw [List.length_drop, hlen]), ← hpre, List.take_append_drop]

theorem snEncodeMasked_of_ge {crc : Byte} {dev : Nat} (h : 36 ^ 10 ≤ mask50 dev (hashKey [crc])) :
    snEncodeMasked crc dev = .error .format := by
  have hlen : (rbPrefix ++ b36Encode (mask50 dev (hashKey [crc])) 10).length ≠ 12 :=
    fun hlen => absurd ((candidate_length _).mp hlen) (not_lt.mpr h)
  refine if_pos fun hlen' => hlen ?_
  rw [List.length_append, crcText_length] at hlen'
  exact Nat.add_right_cancel hlen'

section Encode

variable {p : List Byte}

theorem snEncode_of_prefix_ne (hpre : p.take 2 ≠ rbPrefix) : snEncode p = .error .format := if_pos (.inr hpre)

variable (hlen : p.length = 12) (hpre : p.take 2 = rbPrefix)
include hlen hpre

theorem snEncode_of_not_text (htext : ¬ IsText (p.drop 2)) : snEncode p = .error .digit := by
  rw [snEncode, if_neg (by simp [hlen, hpre]), take_drop_of_length hlen, b36Decode_of_not_text htext]

theorem snEncode_of_text (htext : IsText (p.drop 2)) :
    snEncode p = snEncodeMasked (crc8Cdma2000 p) (textValue (p.drop 2)) := by
  rw [snEncode, if_neg (by simp [hlen, hpre]), take_drop_of_length hlen, b36Decode_of_text htext]

end Encode

/-! ## What decoding answers (R154) -/

section Verify

variable {c : Byte} {dev : Nat}

theorem snVerify_of_crc_ne (h : crc8Cdma2000 (rbPrefix ++ b36Encode dev 10) ≠ c) :
    snVerify c.toNat dev = .error .integrity :=
  if_pos fun hcrc => h (BitVec.eq_of_toNat_eq hcrc)

variable (hcrc : crc8Cdma2000 (rbPrefix ++ b36Encode dev 10) = c)
include hcrc

theorem snVerify_of_length_ne (hlen : (rbPrefix ++ b36Encode dev 10).length ≠ 12) :
    snVerify c.toNat dev = .error .format :=
  (if_neg (not_not.mpr (congrArg BitVec.toNat hcrc))).trans (if_pos hlen)

theorem snVerify_of_length_eq (hlen : (rbPrefix ++ b36Encode dev 10).length = 12) :
    snVerify c.toNat dev = .ok (rbPrefix ++ b36Encode dev 10) :=
  (if_neg (not_not.mpr (congrArg BitVec.toNat hcrc))).trans (if_neg (not_not.mpr hlen))

end Verify

section Decode

variable {e : List Byte}

theorem snDecode_of_prefix_ne (hpre : e.take 2 ≠ rbPrefix) : snDecode e = .error .format := if_pos (.inr hpre)

variable (hlen : e.length = 14) (hpre : e.take 2 = rbPrefix)
include hlen hpre

theorem snDecode_of_crc_not_text (hcrc : ¬ IsText (e.drop 12)) : snDecode e = .error .digit := by
  rw [snDecode, if_neg (by simp [hlen, hpre]), take_drop_of_length hlen, b36Decode_of_not_text hcrc]

variable (hcrc : IsText (e.drop 12))
include hcrc

theorem snDecode_of_crc_gt (hgt : 255 < textValue (e.drop 12)) : snDecode e = .error .integrity := by
  rw [snDecode, if_neg (by simp [hlen, hpre]), take_drop_of_length hlen, b36Decode_of_text hcrc]
  exact if_pos hgt

theorem snDecode_of_masked_not_text (hle : textValue (e.drop 12) ≤ 255) (hmasked : ¬ IsText ((e.drop 2).take 10)) :
    snDecode e = .error .digit := by
  rw [snDecode, if_neg (by simp [hlen, hpre]), take_drop_of_length hlen, b36Decode_of_text hcrc]
  exact (if_neg (not_lt.mpr hle)).trans (by rw [b36Decode_of_not_text hmasked])

theorem snDecode_of_text {c : Byte} (hc : textValue (e.drop 12) = c.toNat) (hmasked : IsText ((e.drop 2).take 10)) :
    snDecode e = snVerify c.toNat (mask50 (textValue ((e.drop 2).take 10)) (hashKey [c])) := by
  have hle : ¬ c.toNat > 255 := by have := c.isLt; omega
  rw [snDecode, if_neg (by simp [hlen, hpre]), take_drop_of_length hlen, b36Decode_of_text hcrc, hc]
  exact (if_neg hle).trans (by rw [b36Decode_of_text hmasked, BitVec.ofNat_toNat, BitVec.setWidth_eq])

end Decode

/-! ## The frame of SN_ENC and SN_DEC (R158, R159) -/

/-- The command `i` takes an input of `l` bytes and gives OBUF and OLEN what the function `f` answers on it. -/
def IsSerialCommand (i : Instr) (l : BitVec 5) (f : List Byte → Except ErrorKind (List Byte)) : Prop :=
  ∀ b : Block, commandResult i b = withInput (serialInput l.toNat b) fun t => toObuf b (f t)

theorem snEnc_isSerial : IsSerialCommand .snEnc 12 snEncode := fun _ => rfl

theorem snDec_isSerial : IsSerialCommand .snDec 14 snDecode := fun _ => rfl

namespace IsSerialCommand

variable {i : Instr} {l : BitVec 5} {f : List Byte → Except ErrorKind (List Byte)} {s : State}

theorem exec_of_ilen_ne (hi : IsSerialCommand i l f) (h : s.block.ilen ≠ l) :
    exec i s = .next { s with block := commandFail s.block .format } :=
  exec_of_error (by rw [hi, serialInput_of_ne fun hn => h (BitVec.eq_of_toNat_eq hn), withInput_error])

theorem commandResult_of_ilen (hi : IsSerialCommand i l f) {b : Block} (h : b.ilen = l) :
    commandResult i b = toObuf b (f (b.ibuf.toList.take l.toNat)) := by
  rw [hi, serialInput_of_eq (congrArg BitVec.toNat h), withInput_ok, ibufBytes, h]

theorem exec_of_answer_error (hi : IsSerialCommand i l f) (hlen : s.block.ilen = l) {e : ErrorKind}
    (h : f (s.block.ibuf.toList.take l.toNat) = .error e) :
    exec i s = .next { s with block := commandFail s.block e } :=
  exec_of_error (by rw [hi.commandResult_of_ilen hlen, h, toObuf_error])

theorem exec_of_answer_ok (hi : IsSerialCommand i l f) (hlen : s.block.ilen = l) {t : List Byte}
    (h : f (s.block.ibuf.toList.take l.toNat) = .ok t) :
    exec i s = .next { s with block := commandOk (setObuf s.block t) } :=
  exec_of_ok (by rw [hi.commandResult_of_ilen hlen, h, toObuf_ok])

/-- Everything the command has done when it leaves no error. -/
theorem exec_eq_ok (hi : IsSerialCommand i l f) {t : State} (h : exec i s = .next t) (herr : t.block.err = 0) :
    ∃ u, f (s.block.ibuf.toList.take l.toNat) = .ok u ∧ t = { s with block := commandOk (setObuf s.block u) } := by
  rcases exec_cases h with ⟨b, hres, rfl⟩ | ⟨e, -, rfl⟩
  · obtain ⟨p, hin, hres⟩ := withInput_eq_ok (hi s.block ▸ hres)
    obtain ⟨u, hu, rfl⟩ := toObuf_eq_ok hres
    obtain ⟨hilen, rfl⟩ := serialInput_eq_ok hin
    rw [ibufBytes, hilen] at hu
    exact ⟨u, hu, rfl⟩
  · exact absurd herr (errCode_ne_zero e)

end IsSerialCommand

/-- Settles O49: the length, the first two bytes, the device number's bytes and the range of the masked value decide, in this
order. -/
theorem snEncEncodesOrReportsTheFirstError : Obligations.SnEncEncodesOrReportsTheFirstError := by
  unfold Obligations.SnEncEncodesOrReportsTheFirstError
  refine ⟨rfl, fun s => ⟨snEnc_isSerial.exec_of_ilen_ne, ?_⟩⟩
  rintro p rfl hilen
  have hlen : (s.block.ibuf.toList.take 12).length = 12 := by simp
  refine ⟨fun hpre => ?_, fun hpre htext => ?_, ?_⟩
  · exact snEnc_isSerial.exec_of_answer_error hilen (snEncode_of_prefix_ne hpre)
  · exact snEnc_isSerial.exec_of_answer_error hilen (snEncode_of_not_text hlen hpre htext)
  · rintro masked hpre htext rfl
    refine ⟨fun hge => ?_, fun hlt => ?_⟩
    · have hmasked := snEncode_of_text hlen hpre htext
      exact snEnc_isSerial.exec_of_answer_error hilen (hmasked.trans (snEncodeMasked_of_ge hge))
    · have hok := snEncode_ok_iff.mpr ⟨hlen, hpre, htext, hlt, rfl⟩
      exact ⟨(snEncode_isText hok).2, snEnc_isSerial.exec_of_answer_ok hilen hok⟩

/-- Settles O50: the length, the first two bytes, the CRC field, the masked field, the candidate's CRC and the candidate's
length decide, in this order. -/
theorem snDecVerifiesOrReportsTheFirstError : Obligations.SnDecVerifiesOrReportsTheFirstError := by
  unfold Obligations.SnDecVerifiesOrReportsTheFirstError
  refine ⟨rfl, fun s => ⟨snDec_isSerial.exec_of_ilen_ne, ?_⟩⟩
  rintro e rfl hilen
  have hlen : (s.block.ibuf.toList.take 14).length = 14 := by simp
  refine ⟨fun hpre => ?_, fun hpre hcrc => ?_, fun hpre hcrc hgt => ?_, fun hpre hcrc hle hmasked => ?_, ?_⟩
  · exact snDec_isSerial.exec_of_answer_error hilen (snDecode_of_prefix_ne hpre)
  · exact snDec_isSerial.exec_of_answer_error hilen (snDecode_of_crc_not_text hlen hpre hcrc)
  · exact snDec_isSerial.exec_of_answer_error hilen (snDecode_of_crc_gt hlen hpre hcrc hgt)
  · exact snDec_isSerial.exec_of_answer_error hilen (snDecode_of_masked_not_text hlen hpre hcrc hle hmasked)
  · rintro c cand hpre hcrc hc hmasked rfl
    have hdec := snDecode_of_text hlen hpre hcrc hc hmasked
    refine ⟨fun hne => ?_, fun heq hne => ?_, fun heq hlen12 => ?_⟩
    · exact snDec_isSerial.exec_of_answer_error hilen (hdec.trans (snVerify_of_crc_ne hne))
    · exact snDec_isSerial.exec_of_answer_error hilen (hdec.trans (snVerify_of_length_ne heq hne))
    · exact snDec_isSerial.exec_of_answer_ok hilen (hdec.trans (snVerify_of_length_eq heq hlen12))

/-! ## The round trip (R155) -/

/-- "RB" and the two fields of an identifier that is put together from them (R152). -/
theorem fields_of_append {m : List Byte} (c : List Byte) (h : m.length = 10) :
    (rbPrefix ++ m ++ c).take 2 = rbPrefix ∧ ((rbPrefix ++ m ++ c).drop 2).take 10 = m ∧
      (rbPrefix ++ m ++ c).drop 12 = c := by
  refine ⟨rfl, ?_, ?_⟩
  · exact List.take_left' h
  · exact List.drop_left' (by rw [List.length_append, h]; rfl)

/-- An identifier is its first two bytes, its masked field and its CRC field, put together (R152). -/
theorem append_fields {e : List Byte} (hpre : e.take 2 = rbPrefix) :
    rbPrefix ++ (e.drop 2).take 10 ++ e.drop 12 = e := by
  rw [← hpre, List.append_assoc, show e.drop 12 = (e.drop 2).drop 10 by rw [List.drop_drop], List.take_append_drop,
    List.take_append_drop]

/-- Decoding reads the masked value and the CRC from the fields, and the mask taken twice gives the device number. -/
theorem snDecode_of_snEncode {p e : List Byte} (h : snEncode p = .ok e) : snDecode e = .ok p := by
  obtain ⟨hlen, hpre, htext, hlt, he⟩ := snEncode_ok_iff.mp h
  obtain ⟨hpre', hmasked, hcrc⟩ := fields_of_append (b36Encode (crc8Cdma2000 p).toNat 2) (b36Encode_length_of_lt hlt)
  rw [← he] at hpre' hmasked hcrc
  have hcrcText : IsText (e.drop 12) := hcrc ▸ b36Encode_isText _ _
  have hmaskedText : IsText ((e.drop 2).take 10) := hmasked ▸ b36Encode_isText _ _
  have hc : textValue (e.drop 12) = (crc8Cdma2000 p).toNat := by rw [hcrc, textValue_b36Encode]
  have hcand := candidate_textValue hlen hpre htext
  have hdec := snDecode_of_text (snEncode_isText h).2 hpre' hcrcText hc hmaskedText
  rw [hmasked, textValue_b36Encode, mask50_mask50] at hdec
  rw [hdec, snVerify_of_length_eq (by rw [hcand]) (by rw [hcand, hlen]), hcand]

/-- The candidate's device number masks back to the masked field, and each field is its number's only spelling at its
length. -/
theorem snEncode_of_snDecode {e p : List Byte} (h : snDecode e = .ok p) : snEncode p = .ok e := by
  obtain ⟨hlen, hpre, hcrcText, hmaskedText, -, dev, hdev, hcrc, -, hp⟩ := snDecode_ok_iff.mp h
  rw [← hp] at hcrc
  have hcrcLen : (e.drop 12).length = 2 := by rw [List.length_drop, hlen]
  have hmaskedLen : ((e.drop 2).take 10).length = 10 := by simp [hlen]
  have hc : BitVec.ofNat 8 (textValue (e.drop 12)) = crc8Cdma2000 p := by
    rw [← hcrc, BitVec.ofNat_toNat, BitVec.setWidth_eq]
  have hdrop : p.drop 2 = b36Encode dev 10 := by rw [hp]; rfl
  have hmask : mask50 (textValue (p.drop 2)) (hashKey [crc8Cdma2000 p]) = textValue ((e.drop 2).take 10) := by
    rw [hdrop, textValue_b36Encode, hdev, hc, mask50_mask50]
  refine snEncode_ok_iff.mpr ⟨(snDecode_isText h).2, by rw [hp]; rfl, hdrop ▸ b36Encode_isText _ _, ?_, ?_⟩
  · rw [hmask]
    exact textValue_lt_of_length hmaskedText hmaskedLen
  · rw [hmask, hcrc, b36Encode_textValue_of_length hmaskedText hmaskedLen,
      b36Encode_textValue_of_length hcrcText hcrcLen, append_fields hpre]

/-- The vector of R155. -/
theorem snEncode_vector :
    snEncode [0x52, 0x42, 0x30, 0x30, 0x44, 0x33, 0x30, 0x47, 0x52, 0x39, 0x4A, 0x31] =
      .ok [0x52, 0x42, 0x39, 0x30, 0x46, 0x4A, 0x37, 0x53, 0x49, 0x48, 0x59, 0x55, 0x31, 0x46] := by
  decide +kernel

/-- Settles O51: decoding undoes each step of an encoding; the vector's decoding is one case of this. -/
theorem decodingRestoresEveryEncodedIdentifier : Obligations.DecodingRestoresEveryEncodedIdentifier := by
  unfold Obligations.DecodingRestoresEveryEncodedIdentifier
  exact ⟨fun p e _ => snDecode_of_snEncode, snEncode_vector, snDecode_of_snEncode snEncode_vector, by decide +kernel⟩

/-- Settles O52: an accepted identifier's fields are the only spellings of their numbers at their lengths. -/
theorem decodingAcceptsOnlyEncodedIdentifiers : Obligations.DecodingAcceptsOnlyEncodedIdentifiers := by
  unfold Obligations.DecodingAcceptsOnlyEncodedIdentifiers
  intro e p h
  have henc := snEncode_of_snDecode h
  exact ⟨(snDecode_isText h).2, (snEncode_isText henc).2, henc⟩

/-! ## The round trip on the machine (R33, R155) -/

/-- The bytes of OBUF below OLEN are the text written there. -/
theorem setObuf_take (b : Block) {t : List Byte} {n : Nat} (hlen : t.length = n) (hn : n ≤ 16) :
    (setObuf b t).obuf.toList.take n = t := by
  refine List.ext_getElem (by simp [hlen, hn]) fun i _ hi => ?_
  rw [List.getElem_take, Vector.getElem_toList]
  exact setObuf_getElem_of_lt b ⟨i, by omega⟩ hi

/-- Settles O53: the bytes moved are those that encoding gave, and decoding restores what it took. -/
theorem encodedOutputDecodesToTheInput : Obligations.EncodedOutputDecodesToTheInput := by
  unfold Obligations.EncodedOutputDecodesToTheInput
  intro s t h herr
  obtain ⟨e, henc, rfl⟩ := snEnc_isSerial.exec_eq_ok h herr
  have hlen : e.length = 14 := (snEncode_isText henc).2
  have holen : (setObuf s.block e).olen = 14 := by rw [setObuf_olen, hlen]; rfl
  have hmoved : (setObuf s.block e).obuf.toList.take 14 = e := setObuf_take s.block hlen (by norm_num)
  have hdec : snDecode e = .ok (s.block.ibuf.toList.take 12) := snDecode_of_snEncode henc
  have hplain : (s.block.ibuf.toList.take 12).length = 12 := (snDecode_isText hdec).2
  refine ⟨_, snDec_isSerial.exec_of_answer_ok holen ((congrArg snDecode hmoved).trans hdec), rfl, ?_, ?_⟩
  · rw [commandOk_olen, setObuf_olen, hplain]; rfl
  · rw [commandOk_obuf]
    exact setObuf_take _ hplain (by norm_num)

/-! ## Tampering (R161) -/

theorem not_isText_set {t : List Byte} {i : Nat} {c : Byte} (hi : i < t.length) (hc : c ∉ alphabet) :
    ¬ IsText (t.set i c) :=
  fun h => hc (h c (List.mem_set hi c))

/-- Settles O55: a byte in the CRC field is seen first; one in the masked field leaves the CRC field as accepted. -/
theorem nonAlphabetTamperingIsADigitError : Obligations.NonAlphabetTamperingIsADigitError := by
  unfold Obligations.NonAlphabetTamperingIsADigitError
  intro e p i c h h2 h14 hc
  obtain ⟨hlen, hpre, hcrcText, -, hle, -⟩ := snDecode_ok_iff.mp h
  have hlen' : (e.set i c).length = 14 := by rw [List.length_set, hlen]
  have hpre' : (e.set i c).take 2 = rbPrefix := by rw [List.take_set_of_le h2, hpre]
  obtain hlt | hge := Nat.lt_or_ge i 12
  · have hdrop : (e.set i c).drop 12 = e.drop 12 := List.drop_set_of_lt hlt
    have hmasked : ((e.set i c).drop 2).take 10 = ((e.drop 2).take 10).set (i - 2) c := by
      rw [List.drop_set, if_neg (by omega), List.take_set]
    refine snDecode_of_masked_not_text hlen' hpre' (hdrop ▸ hcrcText) (hdrop ▸ hle) ?_
    rw [hmasked]
    exact not_isText_set (by rw [List.length_take, List.length_drop, hlen]; omega) hc
  · refine snDecode_of_crc_not_text hlen' hpre' ?_
    rw [List.drop_set, if_neg (by omega)]
    exact not_isText_set (by rw [List.length_drop, hlen]; omega) hc

/-! ## The CRC registers (R156) -/

/-- The machine with other values in the CRC registers. -/
def withCrcRegisters (poly init xorout acc : Byte) (refin refout : Bool) (s : State) : State :=
  { s with block := { s.block with
    crcPoly := poly, crcInit := init, crcXorout := xorout, crcAcc := acc, refin := refin, refout := refout } }

/-- The change leaves the input, and what the rule writes does not depend on it. -/
theorem IsSerialCommand.exec_withCrcRegisters {i : Instr} {l : BitVec 5} {f : List Byte → Except ErrorKind (List Byte)}
    (hi : IsSerialCommand i l f) (s : State) (poly init xorout acc : Byte) (refin refout : Bool) :
    exec i (withCrcRegisters poly init xorout acc refin refout s) =
      mapNext (withCrcRegisters poly init xorout acc refin refout) (exec i s) := by
  have hin : serialInput l.toNat (withCrcRegisters poly init xorout acc refin refout s).block =
      serialInput l.toNat s.block := rfl
  rw [exec_eq_finish, exec_eq_finish, hi, hi, hin]
  cases serialInput l.toNat s.block with
  | error e => rfl
  | ok t =>
    rw [withInput_ok, withInput_ok]
    cases f t with
    | error e => rfl
    | ok u => rfl

/-- Settles O56: what both commands do is a function of their input bytes, in the command frame. -/
theorem serialCommandsIgnoreTheCrcRegisters : Obligations.SerialCommandsIgnoreTheCrcRegisters := by
  unfold Obligations.SerialCommandsIgnoreTheCrcRegisters
  rintro i s poly init xorout acc refin refout (rfl | rfl)
  · exact snEnc_isSerial.exec_withCrcRegisters s poly init xorout acc refin refout
  · exact snDec_isSerial.exec_withCrcRegisters s poly init xorout acc refin refout

end Sys2Proof.Machine

/-! PROOFS. A write to CMD (44_system.md): a legal word runs its command, an illegal one is a CommandError, and NOP. -/

namespace Sys2Proof.Machine

open Sys2Proof.Safety

/-! ## A write to CMD (R171, R172) -/

/-- An admitted write to CMD leaves what its word gives in the command frame, and is answered as a write (R36, R172). -/
theorem step_of_cmdWrite {s : State} {e : BusEvent} {rest : List BusEvent} {w : Word} (hp : s.pending = e :: rest)
    (hwrite : IsWriteAt s e 0x00 w) :
    step s = .next (respond .writeDone
      { s with pending := rest, block := finishBlock s.block (wordResult w s.block) }) := by
  obtain ⟨hheld, rfl⟩ := hwrite
  exact step_writeEvent (r := .cmd) hheld (regOffset_in_window nofun) hp

/-- Settles O7: taking the event leaves the block, so the command's result is the one of its word. -/
theorem stepPerformsTheDecodedCommand : Obligations.StepPerformsTheDecodedCommand := by
  unfold Obligations.StepPerformsTheDecodedCommand
  intro s t e rest w i hp hwrite hdec hexec
  rw [exec_eq_next] at hexec
  cases hexec
  rw [step_of_cmdWrite hp hwrite, wordResult_of_ok hdec, respond]

/-- Settles O8: the result of an illegal word is CommandError, whose code is 5. -/
theorem illegalWordOnlySetsCommandError : Obligations.IllegalWordOnlySetsCommandError := by
  unfold Obligations.IllegalWordOnlySetsCommandError
  intro s e rest w err hp hwrite hdec
  rw [step_of_cmdWrite hp hwrite, wordResult_of_error hdec, finishBlock_error]
  rfl

/-! ## NOP (R170) -/

/-- NOP's row of the table is the one with OPC 0x00 (R73). -/
theorem eq_nop_of_tableOpcode_eq_zero {i : Instr} (h : tableOpcode i = 0x00) : i = .nop := by
  cases i with
  | nop => rfl
  | _ => nomatch h

/-- The one legal word with OPC 0x00 is 0. -/
theorem eq_zero_of_decode_of_opc_zero {w : Word} {i : Instr} (hdec : decode w = .ok i) (hopc : w.toNat % 256 = 0x00) :
    w = 0 := by
  obtain ⟨-, htable, -⟩ := decode_eq_ok_iff_fields.mp hdec
  obtain rfl : i = .nop := eq_nop_of_tableOpcode_eq_zero (by rw [← htable, cmdOpc_toNat, hopc])
  obtain ⟨-, hw⟩ := (decodeAndEncodeAgree w .nop).mp hdec
  exact hw.symm

/-- Settles O30: the command in its frame with the block as it was, and its word as the only legal one with its opcode. -/
theorem nopOnlyClearsTheErrorCode : Obligations.NopOnlyClearsTheErrorCode := by
  unfold Obligations.NopOnlyClearsTheErrorCode
  refine ⟨rfl, fun s => exec_of_ok rfl, fun w hopc hne => decode_isError_iff.mpr fun ⟨i, hdec⟩ => ?_⟩
  exact hne (eq_zero_of_decode_of_opc_zero hdec hopc)

end Sys2Proof.Machine

/-! PROOFS. The errors (60_exceptions.md): what a failing command writes, the codes that each command's rule can give, and
inputs on which the commands that read IBUF give each of theirs. -/

namespace Sys2Proof.Machine

open Sys2Proof.Config Sys2Proof.Safety

/-! ## A failing command (R181) -/

/-- Settles O25: the command frame leaves code 0 after a success, and after an error the block with its code. -/
theorem failedCommandWritesOnlyTheErrorCode : Obligations.FailedCommandWritesOnlyTheErrorCode := by
  unfold Obligations.FailedCommandWritesOnlyTheErrorCode
  intro i s t h herr
  rcases exec_cases h with ⟨b, -, rfl⟩ | ⟨e, -, rfl⟩
  · exact absurd rfl herr
  · rfl

/-! ## The errors of the shared operations (R12, R32, R102) -/

theorem withInput_eq_error {r : Except ErrorKind (List Byte)} {f : List Byte → Except ErrorKind Block} {e : ErrorKind}
    (h : withInput r f = .error e) : r = .error e ∨ ∃ t, f t = .error e := by
  cases r with
  | ok t => exact .inr ⟨t, h⟩
  | error e' => exact .inl (congrArg _ (Except.error.inj h))

theorem toObuf_eq_error {b : Block} {r : Except ErrorKind (List Byte)} {e : ErrorKind} (h : toObuf b r = .error e) :
    r = .error e := by
  cases r with
  | ok t => nomatch h
  | error e' => exact congrArg _ (Except.error.inj h)

section Errors

variable {b : Block} {t : List Byte} {e : ErrorKind}

theorem genericInput_eq_error (h : genericInput b = .error e) : e = .range := by
  obtain hgt | hle := Nat.lt_or_ge 16 b.ilen.toNat
  · exact Except.error.inj (h.symm.trans (genericInput_of_gt hgt))
  · exact nomatch (genericInput_of_le hle).symm.trans h

theorem serialInput_eq_error {n : Nat} (h : serialInput n b = .error e) : e = .format := by
  by_cases hn : b.ilen.toNat = n
  · exact nomatch (serialInput_of_eq hn).symm.trans h
  · exact Except.error.inj (h.symm.trans (serialInput_of_ne hn))

theorem b36Decode_eq_error (h : b36Decode t = .error e) : e = .digit := by
  by_cases htext : IsText t
  · exact nomatch (b36Decode_of_text htext).symm.trans h
  · exact Except.error.inj (h.symm.trans (b36Decode_of_not_text htext))

/-! ## The errors of each rule (R104, R105, R153, R154) -/

theorem b36EncResult_eq_error {md : Nat} (h : b36EncResult md b = .error e) : e = .range := by
  obtain hgt | hle := Nat.lt_or_ge 16 md
  · exact Except.error.inj (h.symm.trans (b36EncResult_of_gt b hgt))
  · exact nomatch (b36EncResult_of_le b hle).symm.trans h

theorem b36DecText_eq_error (h : b36DecText b t = .error e) : e = .digit ∨ e = .range := by
  unfold b36DecText at h
  split at h
  case h_1 e' hdec => exact .inl (Except.error.inj h ▸ b36Decode_eq_error hdec)
  case h_2 =>
    split at h
    · exact .inr (Except.error.inj h).symm
    · nomatch h

theorem snEncodeMasked_eq_error {crc : Byte} {dev : Nat} (h : snEncodeMasked crc dev = .error e) : e = .format := by
  simp only [snEncodeMasked] at h
  split at h
  · exact (Except.error.inj h).symm
  · nomatch h

theorem snEncode_eq_error (h : snEncode t = .error e) : e = .format ∨ e = .digit := by
  unfold snEncode at h
  split at h
  · exact .inl (Except.error.inj h).symm
  · split at h
    case h_1 e' hdec => exact .inr (Except.error.inj h ▸ b36Decode_eq_error hdec)
    case h_2 => exact .inl (snEncodeMasked_eq_error h)

theorem snVerify_eq_error {c dev : Nat} (h : snVerify c dev = .error e) : e = .integrity ∨ e = .format := by
  simp only [snVerify] at h
  split at h
  · exact .inl (Except.error.inj h).symm
  · split at h
    · exact .inr (Except.error.inj h).symm
    · nomatch h

theorem snDecode_eq_error (h : snDecode t = .error e) : e = .format ∨ e = .digit ∨ e = .integrity := by
  unfold snDecode at h
  split at h
  · exact .inl (Except.error.inj h).symm
  · split at h
    case h_1 e' hcrc => exact .inr (.inl (Except.error.inj h ▸ b36Decode_eq_error hcrc))
    case h_2 c hcrc =>
      split at h
      · exact .inr (.inr (Except.error.inj h).symm)
      · split at h
        case h_1 e' hmasked => exact .inr (.inl (Except.error.inj h ▸ b36Decode_eq_error hmasked))
        case h_2 => exact (snVerify_eq_error h).elim (fun he => .inr (.inr he)) .inl

/-! ## The codes of each command (R180, R182) -/

theorem zero_mem_tableCodes (i : Instr) : 0 ∈ tableCodes i := by
  cases i <;> exact List.mem_cons_self

/-- A rule's error is one of its command's row. -/
theorem errCode_mem_tableCodes {i : Instr} (h : commandResult i b = .error e) : errCode e ∈ tableCodes i := by
  cases i with
  | nop | crcReset | crcByte | snMask => nomatch h
  | b36Enc md =>
    obtain rfl := b36EncResult_eq_error h
    exact .tail _ (.head _)
  | b36Dec =>
    obtain hin | ⟨t, ht⟩ := withInput_eq_error h
    · obtain rfl := genericInput_eq_error hin
      decide
    · obtain rfl | rfl := b36DecText_eq_error ht <;> decide
  | crcBuf | hkey =>
    obtain hin | ⟨t, ht⟩ := withInput_eq_error h
    · obtain rfl := genericInput_eq_error hin
      decide
    · nomatch ht
  | snEnc =>
    obtain hin | ⟨t, ht⟩ := withInput_eq_error h
    · obtain rfl := serialInput_eq_error hin
      decide
    · obtain rfl | rfl := snEncode_eq_error (toObuf_eq_error ht) <;> decide
  | snDec =>
    obtain hin | ⟨t, ht⟩ := withInput_eq_error h
    · obtain rfl := serialInput_eq_error hin
      decide
    · obtain rfl | rfl | rfl := snDecode_eq_error (toObuf_eq_error ht) <;> decide

end Errors

/-! ## Each code is reached (R180) -/

/-- Some state in which the command `i` leaves the code `c` in STATUS.ERR. -/
def LeavesCode (i : Instr) (c : BitVec 4) : Prop := ∃ s t : State, exec i s = .next t ∧ t.block.err = c

/-- The bytes of `t` in IBUF, zeros after them, `l` in ILEN, and all else at reset. -/
def inputState (l : BitVec 5) (t : List Byte) : State :=
  { State.reset with block := { Block.reset with ibuf := Vector.ofFn fun j => t.getD j.val 0x00, ilen := l } }

theorem inputState_take (l : BitVec 5) {t : List Byte} {n : Nat} (hlen : t.length = n) (hn : n ≤ 16) :
    (inputState l t).block.ibuf.toList.take n = t :=
  setObuf_take Block.reset hlen hn

section Reached

variable {i : Instr}

theorem leavesCode_zero {s : State} {b : Block} (h : commandResult i s.block = .ok b) : LeavesCode i 0 :=
  ⟨s, _, exec_of_ok h, rfl⟩

theorem leavesCode_errCode {s : State} {e : ErrorKind} (h : commandResult i s.block = .error e) :
    LeavesCode i (errCode e) :=
  ⟨s, _, exec_of_error h, rfl⟩

end Reached

theorem b36Dec_leavesCode : ∀ c ∈ tableCodes .b36Dec, LeavesCode .b36Dec c := by
  simp only [tableCodes, List.forall_mem_cons]
  refine ⟨?ok, ?digit, ?range, List.forall_mem_nil _⟩
  case ok =>
    exact leavesCode_zero (s := inputState 0 []) ((commandResult_b36Dec_of_le (by decide)).trans
      (b36DecText_of_eq_toNat (v := 0) _ (List.forall_mem_nil _) rfl))
  case digit =>
    have hbyte : ¬ IsText (ibufBytes (inputState 1 [0x00]).block) := by unfold IsText; decide
    exact leavesCode_errCode ((commandResult_b36Dec_of_le (by decide)).trans (b36DecText_of_not_text _ hbyte))
  case range => exact leavesCode_errCode (s := inputState 17 []) (commandResult_b36Dec_of_gt (by decide))

theorem crcBuf_leavesCode : ∀ c ∈ tableCodes .crcBuf, LeavesCode .crcBuf c := by
  simp only [tableCodes, List.forall_mem_cons]
  refine ⟨?ok, ?range, List.forall_mem_nil _⟩
  case ok => exact ⟨inputState 0 [], _, exec_crcBuf_of_le (by decide), rfl⟩
  case range => exact ⟨inputState 17 [], _, exec_crcBuf_of_gt (by decide), rfl⟩

theorem hkey_leavesCode : ∀ c ∈ tableCodes .hkey, LeavesCode .hkey c := by
  simp only [tableCodes, List.forall_mem_cons]
  refine ⟨?ok, ?range, List.forall_mem_nil _⟩
  case ok => exact ⟨inputState 0 [], _, exec_hkey_of_le (by decide), rfl⟩
  case range => exact ⟨inputState 17 [], _, exec_hkey_of_gt (by decide), rfl⟩

section Serial

variable {i : Instr} {l : BitVec 5} {f : List Byte → Except ErrorKind (List Byte)}

/-- A serial command leaves FormatError where ILEN is 0 (R32). -/
theorem IsSerialCommand.leavesCode_format (hi : IsSerialCommand i l f) (hl : l ≠ 0) : LeavesCode i (errCode .format) :=
  ⟨inputState 0 [], _, hi.exec_of_ilen_ne hl.symm, rfl⟩

variable {t : List Byte} (hlen : t.length = l.toNat) (hl : l.toNat ≤ 16)
include hlen hl

theorem IsSerialCommand.leavesCode_errCode (hi : IsSerialCommand i l f) {e : ErrorKind} (h : f t = .error e) :
    LeavesCode i (errCode e) :=
  ⟨inputState l t, _, hi.exec_of_answer_error rfl ((congrArg f (inputState_take l hlen hl)).trans h), rfl⟩

theorem IsSerialCommand.leavesCode_zero (hi : IsSerialCommand i l f) {u : List Byte} (h : f t = .ok u) :
    LeavesCode i 0 :=
  ⟨inputState l t, _, hi.exec_of_answer_ok rfl ((congrArg f (inputState_take l hlen hl)).trans h), rfl⟩

end Serial

theorem snEnc_leavesCode : ∀ c ∈ tableCodes .snEnc, LeavesCode .snEnc c := by
  simp only [tableCodes, List.forall_mem_cons]
  refine ⟨?ok, ?format, ?digit, List.forall_mem_nil _⟩
  case ok => exact snEnc_isSerial.leavesCode_zero rfl (by decide) snEncode_vector
  case format => exact snEnc_isSerial.leavesCode_format (by decide)
  case digit =>
    have hdigit : snEncode (rbPrefix ++ List.replicate 10 0x00) = .error .digit :=
      snEncode_of_not_text rfl rfl (by unfold IsText; decide)
    exact snEnc_isSerial.leavesCode_errCode rfl (by decide) hdigit

theorem snDec_leavesCode : ∀ c ∈ tableCodes .snDec, LeavesCode .snDec c := by
  simp only [tableCodes, List.forall_mem_cons]
  refine ⟨?ok, ?format, ?digit, ?integrity, List.forall_mem_nil _⟩
  case ok =>
    exact snDec_isSerial.leavesCode_zero rfl (by decide) (snDecode_of_snEncode snEncode_vector)
  case format => exact snDec_isSerial.leavesCode_format (by decide)
  case digit =>
    have hdigit : snDecode (rbPrefix ++ List.replicate 12 0x00) = .error .digit :=
      snDecode_of_crc_not_text rfl rfl (by unfold IsText; decide)
    exact snDec_isSerial.leavesCode_errCode rfl (by decide) hdigit
  case integrity =>
    have hintegrity : snDecode (rbPrefix ++ List.replicate 12 0x5A) = .error .integrity :=
      snDecode_of_crc_gt rfl rfl (by unfold IsText; decide) (by decide)
    exact snDec_isSerial.leavesCode_errCode rfl (by decide) hintegrity

/-- Settles O27: the command frame leaves code 0 or that of an error the rule can give, and for each of the five commands there
is an input for every code of its row. -/
theorem eachCommandReportsOnlyItsOwnCodes : Obligations.EachCommandReportsOnlyItsOwnCodes := by
  unfold Obligations.EachCommandReportsOnlyItsOwnCodes
  refine ⟨fun i s t h => ?_, ?_⟩
  · rcases exec_cases h with ⟨b, -, rfl⟩ | ⟨e, herr, rfl⟩
    · exact zero_mem_tableCodes i
    · exact errCode_mem_tableCodes herr
  · rintro i (rfl | rfl | rfl | rfl | rfl)
    · exact b36Dec_leavesCode
    · exact crcBuf_leavesCode
    · exact hkey_leavesCode
    · exact snEnc_leavesCode
    · exact snDec_leavesCode

end Sys2Proof.Machine

/-! PROOFS. Reset and hazards (70_reset_and_hazards.md): the edges of the reset line, the accesses it holds off, and the bytes of
IBUF that no command reads. -/

namespace Sys2Proof.Machine

open Sys2Proof.Safety

/-! ## Reset (R200) -/

/-- Settles O6: what an edge does is said in the definition of the step, and while reset is held no transaction is admitted. -/
theorem resetEventRestoresAndHoldsOffTheHosts : Obligations.ResetEventRestoresAndHoldsOffTheHosts := by
  unfold Obligations.ResetEventRestoresAndHoldsOffTheHosts
  refine fun s rest => ⟨step_cons, step_cons, fun t hheld hp hin => ?_⟩
  rw [step_cons hp]
  exact stepTransaction_of_refused (windowOffset_of_inWindow hin) (admitted_eq_false.mpr (.inl hheld))

/-! ## The bytes of IBUF at index ILEN and above (R203) -/

/-- The block with other bytes in IBUF. -/
def withIbuf (buf : Vector Byte 16) (b : Block) : Block := { b with ibuf := buf }

/-- The input is the bytes of IBUF below ILEN, and those alone (R12). -/
theorem ibufBytes_withIbuf {buf : Vector Byte 16} {b : Block}
    (h : ∀ j : Fin 16, j.val < b.ilen.toNat → buf[j] = b.ibuf[j]) : ibufBytes (withIbuf buf b) = ibufBytes b := by
  apply List.ext_getElem
  · rw [ibufBytes_length, ibufBytes_length, withIbuf]
  · intro j hj _
    rw [ibufBytes_length, lt_min_iff] at hj
    obtain ⟨hlt, h16⟩ := hj
    simpa [ibufBytes, withIbuf] using h ⟨j, h16⟩ hlt

/-- A rule that commutes with a change of the block on every input does so whatever its input check answers. -/
theorem withInput_map {f f' : List Byte → Except ErrorKind Block} {g : Block → Block} (h : ∀ t, f' t = (f t).map g)
    (r : Except ErrorKind (List Byte)) : withInput r f' = (withInput r f).map g := by
  cases r with
  | error e => rfl
  | ok t => exact h t

section WithIbuf

variable (buf : Vector Byte 16) (b : Block)

theorem toObuf_withIbuf (r : Except ErrorKind (List Byte)) :
    toObuf (withIbuf buf b) r = (toObuf b r).map (withIbuf buf) := by
  cases r with
  | error e => rfl
  | ok t => rfl

theorem b36EncResult_withIbuf (md : Nat) :
    b36EncResult md (withIbuf buf b) = (b36EncResult md b).map (withIbuf buf) := by
  obtain hgt | hle := Nat.lt_or_ge 16 md
  · rw [b36EncResult_of_gt _ hgt, b36EncResult_of_gt _ hgt, Except.map]
  · rw [b36EncResult_of_le _ hle, b36EncResult_of_le _ hle, Except.map]
    rfl

theorem b36DecText_withIbuf (t : List Byte) :
    b36DecText (withIbuf buf b) t = (b36DecText b t).map (withIbuf buf) := by
  by_cases htext : IsText t
  · rw [b36DecText_of_text _ htext, b36DecText_of_text _ htext, apply_ite (Except.map (withIbuf buf))]
    rfl
  · rw [b36DecText_of_not_text _ htext, b36DecText_of_not_text _ htext, Except.map]

theorem finishBlock_withIbuf (r : Except ErrorKind Block) :
    finishBlock (withIbuf buf b) (r.map (withIbuf buf)) = withIbuf buf (finishBlock b r) := by
  cases r with
  | error e => rfl
  | ok b' => rfl

end WithIbuf

/-- A command's rule reads IBUF through its input alone, and writes none of it (R41). -/
theorem commandResult_withIbuf {buf : Vector Byte 16} {b : Block} (hin : ibufBytes (withIbuf buf b) = ibufBytes b)
    (i : Instr) : commandResult i (withIbuf buf b) = (commandResult i b).map (withIbuf buf) := by
  have generic : genericInput (withIbuf buf b) = genericInput b := by
    rw [genericInput, genericInput, hin, withIbuf]
  have serial (n : Nat) : serialInput n (withIbuf buf b) = serialInput n b := by
    rw [serialInput, serialInput, hin, withIbuf]
  cases i with
  | nop | crcReset | crcByte | snMask => rfl
  | b36Enc md => exact b36EncResult_withIbuf buf b md
  | b36Dec =>
    rw [commandResult, commandResult, generic]
    exact withInput_map (b36DecText_withIbuf buf b) _
  | crcBuf | hkey =>
    rw [commandResult, commandResult, generic]
    refine withInput_map (fun t => ?_) _
    rfl
  | snEnc | snDec =>
    rw [commandResult, commandResult, serial]
    exact withInput_map (fun _ => toObuf_withIbuf buf b _) _

/-- Settles O28: the input does not see the bytes at ILEN and above, and a command's rule and frame see IBUF through it alone. -/
theorem inputBeyondIlenIsNeverRead : Obligations.InputBeyondIlenIsNeverRead := by
  unfold Obligations.InputBeyondIlenIsNeverRead
  intro i s buf h
  have hrule := commandResult_withIbuf (ibufBytes_withIbuf h) i
  calc exec i { s with block := withIbuf buf s.block }
      = .next { s with block := withIbuf buf (finishBlock s.block (commandResult i s.block)) } := by
        rw [exec_eq_next, hrule, finishBlock_withIbuf]
    _ = mapNext (fun t => { t with block := withIbuf buf t.block }) (exec i s) := by
        rw [exec_eq_next, mapNext]

end Sys2Proof.Machine
